-- ==== Sys2Proof/Word.lean ====
section
/-!
DEFINITION. The word and the byte of the machine.

R8, R50: registers, data, instructions and addresses are 16-bit words, and the word is the addressable unit of
memory. R13: the output port takes 8-bit characters. Arithmetic on words wraps modulo 2^16 (R10, R52), which is
what `BitVec` addition does.
-/

namespace Sys2Proof

/-- A 16-bit word: register, memory cell, instruction or address (R8). -/
abbrev Word := BitVec 16

/-- An 8-bit character of the output port, or a byte of a program image (R13, R252). -/
abbrev Byte := BitVec 8

end Sys2Proof
end

