-- ==== Sys2Proof/Syntax.lean ====
section
/-!
DEFINITION. The instructions, one constructor per row of spec/opcode_table.json.

Operands are kept as the encoding gives them (R83, R84, R85): immediates and offsets at their own width, extended
only by the meanings. Ignored bits (R87) are no operands; the one exception is the unassigned opcode, whose report
carries the whole instruction word (R200).
-/

namespace Sys2Proof

/-- The eight general registers R0 to R7 (R30). -/
inductive Reg where
  | r0 | r1 | r2 | r3 | r4 | r5 | r6 | r7
deriving DecidableEq, Repr, Inhabited

/-- The instructions of the opcode map (R90, R91, R103 for RET). -/
inductive Instr where
  /-- ADD DR, SR1, SR2 (R110) -/
  | addReg (dr sr1 sr2 : Reg)
  /-- ADD DR, SR1, #imm5 (R111) -/
  | addImm (dr sr1 : Reg) (imm5 : BitVec 5)
  /-- AND DR, SR1, SR2 (R114) -/
  | andReg (dr sr1 sr2 : Reg)
  /-- AND DR, SR1, #imm5 (R115) -/
  | andImm (dr sr1 : Reg) (imm5 : BitVec 5)
  /-- NOT DR, SR (R118) -/
  | not (dr sr : Reg)
  /-- BR[n][z][p] #offset9 (R130) -/
  | br (n z p : Bool) (offset9 : BitVec 9)
  /-- JMP BaseR (R136), for BaseR other than R7 -/
  | jmp (baseR : Reg)
  /-- RET, the words of JMP with BaseR = 7 (R136, R137) -/
  | ret
  /-- JSR #offset11 (R140) -/
  | jsr (offset11 : BitVec 11)
  /-- JSRR BaseR (R141) -/
  | jsrr (baseR : Reg)
  /-- LD DR, #offset9 (R150) -/
  | ld (dr : Reg) (offset9 : BitVec 9)
  /-- LDI DR, #offset9 (R152) -/
  | ldi (dr : Reg) (offset9 : BitVec 9)
  /-- LDR DR, BaseR, #offset6 (R154) -/
  | ldr (dr baseR : Reg) (offset6 : BitVec 6)
  /-- LEA DR, #offset9 (R156) -/
  | lea (dr : Reg) (offset9 : BitVec 9)
  /-- ST SR, #offset9 (R160) -/
  | st (sr : Reg) (offset9 : BitVec 9)
  /-- STI SR, #offset9 (R162) -/
  | sti (sr : Reg) (offset9 : BitVec 9)
  /-- STR SR, BaseR, #offset6 (R164) -/
  | str (sr baseR : Reg) (offset6 : BitVec 6)
  /-- RTI (R180) -/
  | rti
  /-- TRAP trapvect8 (R184) -/
  | trap (trapvect8 : BitVec 8)
  /-- the unassigned opcode 0b1101 with its low twelve bits, which its report shows (R92, R200) -/
  | unassigned (low12 : BitVec 12)
deriving DecidableEq, Repr, Inhabited

end Sys2Proof
end

