-- ==== Sys2Proof/WellFormed.lean ====
section
/-!
DEFINITION. Which instructions stand for words.

Every operand at every value its field admits is well formed (R84, R94). The one check: the words of JMP with
BaseR = 7 are the table's row RET (R103, R137), so `jmp r7` is no reading of any word; `ret` is.
-/

namespace Sys2Proof

/-- The instruction is the decoder's reading of some word. -/
def Instr.wf : Instr → Bool
  | .jmp baseR => baseR != .r7
  | .addReg _ _ _ | .addImm _ _ _ | .andReg _ _ _ | .andImm _ _ _ | .not _ _ => true
  | .br _ _ _ _ | .ret | .jsr _ | .jsrr _ => true
  | .ld _ _ | .ldi _ _ | .ldr _ _ _ | .lea _ _ | .st _ _ | .sti _ _ | .str _ _ _ => true
  | .rti | .trap _ | .unassigned _ => true

end Sys2Proof
end

