-- ==== Sys2Proof/Decode.lean ====
section
/-!
DEFINITION. Decoding a word (R82 to R94), and after it the encoder.

Decoding is total and reads the word alone (R94). Opcode numbers and field positions are those of R83 and R90
(the spec's decisions D1 and D8; log 10).
-/

namespace Sys2Proof

/-- The register a 3-bit field names (R84). -/
def Reg.ofBits (b : BitVec 3) : Reg :=
  match b.toNat with
  | 0 => .r0
  | 1 => .r1
  | 2 => .r2
  | 3 => .r3
  | 4 => .r4
  | 5 => .r5
  | 6 => .r6
  | _ => .r7

/-- The 3-bit field that names a register (R84). -/
def Reg.toBits : Reg → BitVec 3
  | .r0 => 0
  | .r1 => 1
  | .r2 => 2
  | .r3 => 3
  | .r4 => 4
  | .r5 => 5
  | .r6 => 6
  | .r7 => 7

/-- ir[15:12] (R82). -/
def opcodeField (ir : Word) : BitVec 4 := ir.extractLsb' 12 4

/-- ir[11:9]: DR, or SR of a store (R83). -/
def drField (ir : Word) : Reg := Reg.ofBits (ir.extractLsb' 9 3)

/-- ir[8:6]: SR1, SR of NOT, or BaseR (R83). -/
def baseField (ir : Word) : Reg := Reg.ofBits (ir.extractLsb' 6 3)

/-- ir[2:0]: SR2 (R83). -/
def sr2Field (ir : Word) : Reg := Reg.ofBits (ir.extractLsb' 0 3)

/-- ADD and AND: ir[5] selects the register form (0) or the immediate form (1) (R91). -/
def immMode (ir : Word) : Bool := ir.getLsbD 5

/-- JSR and JSRR: ir[11] selects JSR (1) or JSRR (0) (R91). -/
def jsrMode (ir : Word) : Bool := ir.getLsbD 11

/-- The instruction of BaseR in the row JMP / RET (R136, R137). -/
def jumpTo (baseR : Reg) : Instr := if baseR = .r7 then .ret else .jmp baseR

/-- The instruction a word stands for: the opcode map R90 with the sub-decodes R91. -/
def decode (ir : Word) : Instr :=
  match (opcodeField ir).toNat with
  | 0 => .br (ir.getLsbD 11) (ir.getLsbD 10) (ir.getLsbD 9) (ir.extractLsb' 0 9)
  | 1 => if immMode ir then .addImm (drField ir) (baseField ir) (ir.extractLsb' 0 5)
         else .addReg (drField ir) (baseField ir) (sr2Field ir)
  | 2 => .ld (drField ir) (ir.extractLsb' 0 9)
  | 3 => .st (drField ir) (ir.extractLsb' 0 9)
  | 4 => if jsrMode ir then .jsr (ir.extractLsb' 0 11) else .jsrr (baseField ir)
  | 5 => if immMode ir then .andImm (drField ir) (baseField ir) (ir.extractLsb' 0 5)
         else .andReg (drField ir) (baseField ir) (sr2Field ir)
  | 6 => .ldr (drField ir) (baseField ir) (ir.extractLsb' 0 6)
  | 7 => .str (drField ir) (baseField ir) (ir.extractLsb' 0 6)
  | 8 => .rti
  | 9 => .not (drField ir) (baseField ir)
  | 10 => .ldi (drField ir) (ir.extractLsb' 0 9)
  | 11 => .sti (drField ir) (ir.extractLsb' 0 9)
  | 12 => jumpTo (baseField ir)
  | 13 => .unassigned (ir.extractLsb' 0 12)
  | 14 => .lea (drField ir) (ir.extractLsb' 0 9)
  | _ => .trap (ir.extractLsb' 0 8)

/-- The instruction of an opcode-table word of `nbits` bits. Every instruction is one 16-bit word (R81): bits from
`nbits` up are zeros, and a longer word is refused. -/
def decodeTableWord (nbits w : Nat) : Option Instr :=
  if nbits ≤ 16 then some (decode (BitVec.ofNat 16 (w % 2 ^ nbits))) else none

/-- The word of an instruction, ignored bits at their canonical values (R88, R90). -/
def encode : Instr → Word
  | .addReg dr sr1 sr2 => 0b0001#4 ++ dr.toBits ++ sr1.toBits ++ 0b000#3 ++ sr2.toBits
  | .addImm dr sr1 imm5 => 0b0001#4 ++ dr.toBits ++ sr1.toBits ++ 0b1#1 ++ imm5
  | .andReg dr sr1 sr2 => 0b0101#4 ++ dr.toBits ++ sr1.toBits ++ 0b000#3 ++ sr2.toBits
  | .andImm dr sr1 imm5 => 0b0101#4 ++ dr.toBits ++ sr1.toBits ++ 0b1#1 ++ imm5
  | .not dr sr => 0b1001#4 ++ dr.toBits ++ sr.toBits ++ 0b111111#6
  | .br n z p offset9 => 0b0000#4 ++ BitVec.ofBool n ++ BitVec.ofBool z ++ BitVec.ofBool p ++ offset9
  | .jmp baseR => 0b1100#4 ++ 0b000#3 ++ baseR.toBits ++ 0b000000#6
  | .ret => 0b1100#4 ++ 0b000#3 ++ 0b111#3 ++ 0b000000#6
  | .jsr offset11 => 0b0100#4 ++ 0b1#1 ++ offset11
  | .jsrr baseR => 0b0100#4 ++ 0b000#3 ++ baseR.toBits ++ 0b000000#6
  | .ld dr offset9 => 0b0010#4 ++ dr.toBits ++ offset9
  | .ldi dr offset9 => 0b1010#4 ++ dr.toBits ++ offset9
  | .ldr dr baseR offset6 => 0b0110#4 ++ dr.toBits ++ baseR.toBits ++ offset6
  | .lea dr offset9 => 0b1110#4 ++ dr.toBits ++ offset9
  | .st sr offset9 => 0b0011#4 ++ sr.toBits ++ offset9
  | .sti sr offset9 => 0b1011#4 ++ sr.toBits ++ offset9
  | .str sr baseR offset6 => 0b0111#4 ++ sr.toBits ++ baseR.toBits ++ offset6
  | .rti => 0b1000#4 ++ 0b000000000000#12
  | .trap trapvect8 => 0b1111#4 ++ 0b0000#4 ++ trapvect8
  | .unassigned low12 => 0b1101#4 ++ low12

end Sys2Proof
end

