-- ==== Sys2Proof/Config.lean ====
section
/-!
DEFINITION. The named parameters of the machine (R9): what the spec leaves to the implementation.

A configuration is plain data. It stands in the state as the field `cfg`, which no instruction writes, so that a
statement about every state is a statement about every choice of the parameters (log 8, 9). The spec's default
values stand in Machine/Params.lean.
-/

namespace Sys2Proof

/-- The parameters of R9. -/
structure Config where
  /-- DEV_STATUS_ADDR, the address of the device status register (R55) -/
  devStatusAddr : Word
  /-- DEV_DATA_ADDR, the address of the device data register (R54) -/
  devDataAddr : Word
  /-- STATUS_READY_VALUE, what a read of the status register answers (R55) -/
  statusReady : Word
  /-- IN_PROMPT, the characters IN emits before it reads (R193) -/
  inPrompt : List Byte
deriving DecidableEq, Repr, Inhabited

/-- The constraints R9 puts on the parameters: two different device addresses, and the ready bit 15 set. -/
def Config.wf (c : Config) : Bool :=
  c.devStatusAddr != c.devDataAddr && c.statusReady.msb

end Sys2Proof
end

