-- ==== Sys2Proof/Machine/Params.lean ====
section
/-!
DEFINITION. The default parameters (R9) and the reset values (R45, R250) of the machine.
-/

namespace Sys2Proof.Machine

/-- DEV_STATUS_ADDR's default, 0xFE00 (R9, the spec's decision D2; PRESUMED, log 8; unsafe for claims about the
reset state's own parameters). -/
def defaultDevStatusAddr : Word := 0xFE00

/-- DEV_DATA_ADDR's default, 0xFE02 (R9, the spec's decision D2; PRESUMED, log 8; unsafe as above). -/
def defaultDevDataAddr : Word := 0xFE02

/-- STATUS_READY_VALUE's default, 0x8000 (R9, R55, the spec's decision D3; log 8). -/
def defaultStatusReady : Word := 0x8000

/-- IN_PROMPT's default, the text "Enter a character: " (R9, G7; PRESUMED, log 9; unsafe for claims about the reset
state's own prompt). -/
def defaultInPrompt : List Byte :=
  [0x45, 0x6E, 0x74, 0x65, 0x72, 0x20, 0x61, 0x20] ++
  [0x63, 0x68, 0x61, 0x72, 0x61, 0x63, 0x74, 0x65, 0x72, 0x3A, 0x20]

/-- The parameters at their defaults (R9). -/
def defaultConfig : Config :=
  { devStatusAddr := defaultDevStatusAddr, devDataAddr := defaultDevDataAddr,
    statusReady := defaultStatusReady, inPrompt := defaultInPrompt }

/-- DEFAULT_ENTRY, the pc at reset (R8, R45, R251). -/
def defaultEntry : Word := 0x3000

/-- x[0..7] at reset (R45, the spec's decision D6; log 11). -/
def resetRegister : Word := 0x0000

/-- psr at reset: N = 0, Z = 1, P = 0, bits 15:3 zero (R45, the spec's decision D5; log 12). -/
def resetPsr : Word := 0x0002

end Sys2Proof.Machine
end

