-- ==== Sys2Proof/Machine/State.lean ====
section
/-!
DEFINITION. The state of the machine as plain data, the reasons a step can stop, and the state after reset.

The first five fields are the complete state of the core (10_state.md). `cfg` holds the parameters of R9. The last
four are the model's own: the host's answers to come on the input and output ports, and the record of the port
interactions so far (R12, R13, R14; log 2, 3, 4, 22).
-/

namespace Sys2Proof.Machine

/-- The register file x[0..7] (R30). -/
structure RegFile where
  r0 : Word
  r1 : Word
  r2 : Word
  r3 : Word
  r4 : Word
  r5 : Word
  r6 : Word
  r7 : Word
deriving DecidableEq, Repr, Inhabited

/-- The memory mem[0..65535] (R50): pairs of a word address and the 16-bit word it holds, addresses strictly
rising, no pair with the word 0x0000, which is what an unlisted address reads as (R61). Canonical form:
`Memory.wf`; log 1. -/
abbrev Memory := List (Nat × Word)

/-- Why a run ended cleanly (R16, R225). -/
inductive HaltKind where
  /-- the HALT trap (R198) -/
  | haltTrap
  /-- the host answered end of input (R54, R190, R193) -/
  | endOfInput
deriving DecidableEq, Repr

/-- Why a run ended in an error (R16, R221, R222). -/
inductive FatalKind where
  /-- RTI was executed (R180) -/
  | rtiUnsupported
  /-- TRAP with a vector outside 0x20..0x25 (R199) -/
  | unknownTrapVector (v : BitVec 8)
  /-- the host answered I/O failure to an input or an output request (R54, R187) -/
  | ioFailure
deriving DecidableEq, Repr

/-- The run status (R16, R42, R220). -/
inductive RunStatus where
  | running
  | halted (kind : HaltKind)
  | fatal (kind : FatalKind)
deriving DecidableEq, Repr

/-- The host's answer to one input request (R12). -/
inductive InputAnswer where
  | char (c : Word)
  | endOfInput
  | ioFailure
deriving DecidableEq, Repr

/-- The host's answer to one output request (R13). -/
inductive OutputAnswer where
  | ok
  | ioFailure
deriving DecidableEq, Repr

/-- One interaction on a port of the core, with the host's answer (R12, R13, R14). -/
inductive PortEvent where
  /-- an input request and its answer (R12) -/
  | input (answer : InputAnswer)
  /-- an output request for one character and its answer (R13) -/
  | output (c : Byte) (answer : OutputAnswer)
  /-- Report(UnknownOpcode, addr, ir) (R14, R200) -/
  | report (addr ir : Word)
deriving DecidableEq, Repr

/-- What the host does once the characters of `inputChars` are used up (R12, R245; DESIGN CHOICE, log 3). -/
inductive InputAfter where
  /-- it answers EndOfInput -/
  | endOfInput
  /-- it answers IoFailure -/
  | ioFailure
  /-- it never answers: the core holds forever (R245, U6) -/
  | never
  /-- it answers Char(c) to every further request -/
  | forever (c : Word)
deriving DecidableEq, Repr

/-- The state of the machine: plain data. -/
structure State where
  /-- x[0..7] (R30) -/
  regs : RegFile
  /-- the program counter, a word address (R33) -/
  pc : Word
  /-- the processor status word: N bit 2, Z bit 1, P bit 0 (R35, R36) -/
  psr : Word
  /-- the memory, the two hidden backing cells among it (R43, R50) -/
  mem : Memory
  /-- the run status (R16, R42) -/
  status : RunStatus
  /-- the parameters of R9 -/
  cfg : Config
  /-- the characters the host answers to the next input requests, in order (R12; log 2) -/
  inputChars : List Word
  /-- what it does after them (log 3) -/
  inputAfter : InputAfter
  /-- how many output requests the host still answers Ok before one IoFailure; none: it never fails (R13; log 4) -/
  outputFailsAfter : Option Nat
  /-- every port interaction so far, oldest first (R247; log 22) -/
  trace : List PortEvent
deriving DecidableEq, Repr

/-- Why a step has no next state. Both are stuck states of the spec. -/
inductive Fault where
  /-- Raised by an input request that the host never answers (fetch, loads, STI, GETC, IN, PUTS, PUTSP through the
  device data register): the core holds forever (R245, U6). Safe: the model stops where the core waits. -/
  | inputNeverAnswered
  /-- Raised by PUTS and PUTSP when the scan meets no zero word and the host's answers never end it: a hang, not a
  fault of the core (R192, R196, U9). Safe: the model stops where the core loops. -/
  | scanNeverEnds
deriving DecidableEq, Repr

/-- Why an input to the model has no meaning. -/
inductive Refusal where
  /-- An instruction without a meaning yet, by its mnemonic: raised by a refused arm of exec alone; there is none.
  Safe. -/
  | notModelled (mnemonic : String)
  /-- Raised by `loadImage`: fewer than two bytes, so no origin (R252, D19). Safe. -/
  | imageTooShort
  /-- Raised by `loadImage`: an odd number of bytes (R252, D19). Safe. -/
  | imageOddLength
  /-- Raised by `loadImage`: the words do not fit below 0x10000 (R252, D19). Safe. -/
  | imageOverflow
  /-- Raised by `loadImage`: the run has ended, so there is no load port any more (R15, R252). Safe. -/
  | loadAfterEnd
deriving DecidableEq, Repr

/-- The machine right after reset, before the loader runs (R45, R250). The last four fields are the model's own:
DESIGN CHOICE, log 2, 3, 4, 22 (the input script is the empty one of 95_test_vectors.md, answered EndOfInput). -/
def State.reset : State :=
  { regs := ⟨resetRegister, resetRegister, resetRegister, resetRegister,
             resetRegister, resetRegister, resetRegister, resetRegister⟩
    pc := defaultEntry
    psr := resetPsr
    mem := []
    status := .running
    cfg := defaultConfig
    inputChars := []
    inputAfter := .endOfInput
    outputFailsAfter := none
    trace := [] }

end Sys2Proof.Machine
end

