-- ==== Sys2Proof/Machine/Ops.lean ====
section
/-!
DEFINITION. The named operations over the state: registers, memory, ports, the end of a run, trap entry.

Every meaning is written over these. All of them are total.
-/

namespace Sys2Proof.Machine

/-- What exec and step answer. -/
abbrev Result := Host.Outcome State Fault Refusal

/-! ### Registers (R30, R33, R35) -/

/-- Read one register of the file. No register is hardwired (R30). -/
def RegFile.get (f : RegFile) : Reg → Word
  | .r0 => f.r0
  | .r1 => f.r1
  | .r2 => f.r2
  | .r3 => f.r3
  | .r4 => f.r4
  | .r5 => f.r5
  | .r6 => f.r6
  | .r7 => f.r7

/-- Write one register of the file (R30). -/
def RegFile.set (f : RegFile) (r : Reg) (v : Word) : RegFile :=
  match r with
  | .r0 => { f with r0 := v }
  | .r1 => { f with r1 := v }
  | .r2 => { f with r2 := v }
  | .r3 => { f with r3 := v }
  | .r4 => { f with r4 := v }
  | .r5 => { f with r5 := v }
  | .r6 => { f with r6 := v }
  | .r7 => { f with r7 := v }

/-- x[r] (R10). -/
def State.reg (s : State) (r : Reg) : Word := s.regs.get r

/-- x[r] <- v (R10). -/
def State.setReg (s : State) (r : Reg) (v : Word) : State := { s with regs := s.regs.set r v }

/-- pc <- v (R10, R33). -/
def State.setPc (s : State) (v : Word) : State := { s with pc := v }

/-- psr <- v (R10, R35). -/
def State.setPsr (s : State) (v : Word) : State := { s with psr := v }

/-- status <- v (R16). -/
def State.setStatus (s : State) (v : RunStatus) : State := { s with status := v }

/-- Memory replaced by another. -/
def State.setMem (s : State) (m : Memory) : State := { s with mem := m }

/-- The characters the host still has to answer (log 2). -/
def State.setInputChars (s : State) (cs : List Word) : State := { s with inputChars := cs }

/-- The output requests still answered Ok (log 4). -/
def State.setOutputFailsAfter (s : State) (n : Option Nat) : State := { s with outputFailsAfter := n }

/-- One more port interaction (R247, log 22). -/
def State.record (s : State) (e : PortEvent) : State := { s with trace := s.trace ++ [e] }

/-! ### Storage (R50, R56, R61) -/

/-- What a word of memory that is not listed reads as: the reset contents (R45, R61). -/
def Memory.unlisted : Word := 0x0000

/-- The word stored at a numeric address. -/
def Memory.lookup : Memory → Nat → Word
  | [], _ => Memory.unlisted
  | (b, w) :: rest, a => if a = b then w else Memory.lookup rest a

/-- A pair put in front, unless it says what an unlisted address reads as. -/
def Memory.put (a : Nat) (v : Word) (rest : Memory) : Memory :=
  if v = Memory.unlisted then rest else (a, v) :: rest

/-- The memory with the word at a numeric address replaced, in canonical form. -/
def Memory.insert : Memory → Nat → Word → Memory
  | [], a, v => Memory.put a v []
  | (b, w) :: rest, a, v =>
    if a < b then Memory.put a v ((b, w) :: rest)
    else if a = b then Memory.put a v rest
    else (b, w) :: Memory.insert rest a v

/-- mem[a] (R50): the storage word at an address, the device intercept not consulted. -/
def Memory.read (m : Memory) (a : Word) : Word := Memory.lookup m a.toNat

/-- mem[a] <- v (R56). -/
def Memory.write (m : Memory) (a v : Word) : Memory := Memory.insert m a.toNat v

/-- The canonical form from the address `lo` up: addresses strictly rising and below 0x10000, no listed word equal to
what an unlisted address reads as. -/
def Memory.wfFrom (lo : Nat) : Memory → Bool
  | [] => true
  | (a, v) :: rest => decide (lo ≤ a) && decide (a < 0x10000) && v != Memory.unlisted && Memory.wfFrom (a + 1) rest

/-- The canonical form of a memory (log 1). -/
def Memory.wf (m : Memory) : Bool := Memory.wfFrom 0 m

/-- `mem[o + i] <- w[i]` for i = 0, 1, … in order (R252). -/
def Memory.writeWords (m : Memory) (o : Word) : List Word → Memory
  | [] => m
  | w :: ws => Memory.writeWords (m.write o w) (o + 1) ws

/-! ### The end of a run (R16, R220, R222, R225) -/

/-- `raise Fatal(kind)`: the shared operation of every fatal error. No handler runs, nothing is saved or rolled back:
every change made earlier in the step stays, and the status carries the kind (R11, R222). -/
def raiseFatal (kind : FatalKind) (s : State) : State := s.setStatus (.fatal kind)

/-- `terminate(kind)`: the run ends cleanly (R11, R225). -/
def terminate (kind : HaltKind) (s : State) : State := s.setStatus (.halted kind)

/-! ### Requests that may end the run -/

/-- What a memory or port request comes to: a value and the state after it, the end of the run inside it, or a stuck
core (R11: no later statement of the step runs in the last two cases). -/
inductive Access (α : Type) where
  | value (a : α) (s : State)
  | ended (s : State)
  | stuck (f : Fault)
deriving Repr

/-- Go on with the value of a request; if the run ended in it, the state at that moment is the step's next state
(R222, R226). -/
def Access.andThen {α : Type} (r : Access α) (k : α → State → Result) : Result :=
  match r with
  | .value a s => k a s
  | .ended s => .next s
  | .stuck f => .fault f

/-! ### The ports (R12, R13, R14) -/

/-- The host's answer to the next input request; none: it never answers (R12, R245; log 2, 3). -/
def nextAnswer (s : State) : Option InputAnswer :=
  match s.inputChars with
  | c :: _ => some (.char c)
  | [] =>
    match s.inputAfter with
    | .endOfInput => some .endOfInput
    | .ioFailure => some .ioFailure
    | .never => none
    | .forever c => some (.char c)

/-- The state once an input request has been answered: the answer is used up and recorded. -/
def consumeInput (answer : InputAnswer) (s : State) : State :=
  (s.setInputChars s.inputChars.tail).record (.input answer)

/-- `InputRead()` with what every user of it does with the answer (R12, R54, R187, R190, R193): Char(c) is the value,
EndOfInput ends the run cleanly, IoFailure ends it in an error; no answer holds the core. -/
def inputRead (s : State) : Access Word :=
  match nextAnswer s with
  | some (.char c) => .value c (consumeInput (.char c) s)
  | some .endOfInput => .ended (terminate .endOfInput (consumeInput .endOfInput s))
  | some .ioFailure => .ended (raiseFatal .ioFailure (consumeInput .ioFailure s))
  | none => .stuck .inputNeverAnswered

/-- `Emit(c)`: one output request; IoFailure ends the run in an error (R13, R187). -/
def emit (c : Byte) (s : State) : Access Unit :=
  match s.outputFailsAfter with
  | none => .value () (s.record (.output c .ok))
  | some 0 => .ended (raiseFatal .ioFailure (s.record (.output c .ioFailure)))
  | some (n + 1) => .value () ((s.setOutputFailsAfter (some n)).record (.output c .ok))

/-- The characters of a list emitted one after another, up to the first failure (R187). -/
def emitAll : List Byte → State → Access Unit
  | [], s => .value () s
  | c :: cs, s =>
    match emit c s with
    | .value _ s' => emitAll cs s'
    | .ended s' => .ended s'
    | .stuck f => .stuck f

/-- `Report(UnknownOpcode, addr, ir)`: it has no answer and cannot fail (R14, R223). -/
def reportUnknownOpcode (addr ir : Word) (s : State) : State := s.record (.report addr ir)

/-- The characters emitted, in order: the output requests answered Ok (R187, R247). -/
def State.output (s : State) : List Byte :=
  s.trace.filterMap fun
    | .output c .ok => some c
    | _ => none

/-- The reports made, in order (R247). -/
def State.reports (s : State) : List (Word × Word) :=
  s.trace.filterMap fun
    | .report addr ir => some (addr, ir)
    | _ => none

/-! ### Memory accesses (R53, R56) -/

/-- `MemRead(a, 1)`: the read contract with the device intercept (R53, R54, R55). -/
def memRead (a : Word) (s : State) : Access Word :=
  if a = s.cfg.devStatusAddr then .value s.cfg.statusReady s
  else if a = s.cfg.devDataAddr then inputRead s
  else .value (s.mem.read a) s

/-- `MemWrite(a, 1, v)`: storage is written at every address, a device address's hidden backing cell among them
(R43, R56). -/
def memWrite (a v : Word) (s : State) : State := s.setMem (s.mem.write a v)

/-- The fetch of a step: `ir <- MemRead(pc, 1); pc <- pc + 1` (R80). A read that ends the run leaves pc at the fetch
address (R80, R226; the spec's decision D23). -/
def fetch (s : State) : Access Word :=
  match memRead s.pc s with
  | .value ir s' => .value ir (s'.setPc (s'.pc + 1))
  | .ended s' => .ended s'
  | .stuck f => .stuck f

/-- The state whose next fetch answers the word: the word stored at pc, and the status Running. At a device address a
fetch does not read storage (R53), so there the word is the status value or the host's next character; log 28. -/
def placeFetchWord (w : Word) (s : State) : State :=
  if s.pc = s.cfg.devStatusAddr then
    { s with status := .running, cfg := { s.cfg with statusReady := w } }
  else if s.pc = s.cfg.devDataAddr then
    (s.setStatus .running).setInputChars (w :: s.inputChars)
  else (memWrite s.pc w s).setStatus .running

/-! ### Trap entry (R184, R227) -/

/-- Entering a service routine saves the return address in x[7], and changes nothing else: no mode, mask, stack, psr
or pc (R184, R227). The return is implicit: a routine ends, and execution goes on at pc, which was never changed
(R228). -/
def enterTrap (s : State) : State := s.setReg .r7 s.pc

end Sys2Proof.Machine
end

