-- ==== Sys2Proof/Machine/Operands.lean ====
section
/-!
DEFINITION. Operand values and effective addresses (R11, R85, R86), all sums wrapping modulo 2^16 (R52).
-/

namespace Sys2Proof.Machine

/-- sext_N (R11): an N-bit field widened to 16 bits by its own top bit. -/
def sext {n : Nat} (v : BitVec n) : Word := v.signExtend 16

/-- The PC-relative address of a 9-bit offset; pc is the fetch-incremented value (R86). -/
def pcRel9 (offset9 : BitVec 9) (s : State) : Word := s.pc + sext offset9

/-- The PC-relative address of an 11-bit offset (R86, R140). -/
def pcRel11 (offset11 : BitVec 11) (s : State) : Word := s.pc + sext offset11

/-- The base + offset address (R86). -/
def baseOff6 (baseR : Reg) (offset6 : BitVec 6) (s : State) : Word := s.reg baseR + sext offset6

/-- Bits [7:0] of a word (R191, R192, R196). -/
def lowByte (w : Word) : Byte := w.extractLsb' 0 8

/-- Bits [15:8] of a word (R196). -/
def highByte (w : Word) : Byte := w.extractLsb' 8 8

end Sys2Proof.Machine
end

