-- ==== Sys2Proof/Machine/Flags.lean ====
section
/-!
DEFINITION. The condition codes: how a result sets them (R37) and how BR tests them (R130).
-/

namespace Sys2Proof.Machine

/-- N: the top bit is set and the value is not zero (R37). -/
def flagN (v : Word) : Bool := v.msb && v != 0

/-- Z: the value is zero (R37). -/
def flagZ (v : Word) : Bool := v == 0

/-- P: the top bit is clear and the value is not zero (R37). -/
def flagP (v : Word) : Bool := !v.msb && v != 0

/-- `(N << 2) | (Z << 1) | P` (R37), as the three bits psr[2:0]. -/
def ccBits (v : Word) : BitVec 3 :=
  BitVec.ofBool (flagN v) ++ BitVec.ofBool (flagZ v) ++ BitVec.ofBool (flagP v)

/-- The psr after setcc: bits 15:3 kept, the low three bits replaced (R37). -/
def psrWithCC (psr v : Word) : Word := (psr &&& 0xFFF8) ||| (ccBits v).setWidth 16

/-- setcc(v) (R37). -/
def setcc (v : Word) (s : State) : State := s.setPsr (psrWithCC s.psr v)

/-- psr[2:0] (R36). -/
def ccField (psr : Word) : BitVec 3 := psr.extractLsb' 0 3

/-- The condition of BR: `(ir[11:9] & psr[2:0]) != 0` (R130). -/
def branchTaken (n z p : Bool) (psr : Word) : Bool :=
  ((BitVec.ofBool n ++ BitVec.ofBool z ++ BitVec.ofBool p : BitVec 3) &&& ccField psr) != 0

/-- What ADD, AND, NOT, LEA and the loads do with their result: x[DR] <- v, then setcc(v) (R38). -/
def writeResult (dr : Reg) (v : Word) (s : State) : State := setcc v (s.setReg dr v)

end Sys2Proof.Machine
end

