-- ==== Sys2Proof/Machine/Control.lean ====
section
/-!
DEFINITION. Control transfer: BR, JMP, RET, JSR, JSRR (41_control.md). They raise nothing, access no memory and write
no flag; pc is the fetch-incremented value.
-/

namespace Sys2Proof.Machine

/-- pc <- x[BaseR], the one rule of JMP and RET (R136). -/
def jumpThrough (baseR : Reg) (s : State) : State := s.setPc (s.reg baseR)

/-- x[7] <- pc, the return address (R140, R141). -/
def link (s : State) : State := s.setReg .r7 s.pc

/-- BR[n][z][p] #offset9 (R130). -/
def execBr (n z p : Bool) (offset9 : BitVec 9) (s : State) : Result :=
  .next (if branchTaken n z p s.psr then s.setPc (pcRel9 offset9 s) else s)

/-- JMP BaseR (R136). -/
def execJmp (baseR : Reg) (s : State) : Result := .next (jumpThrough baseR s)

/-- RET: JMP through R7, which it leaves as it is (R136, R137). -/
def execRet (s : State) : Result := .next (jumpThrough .r7 s)

/-- JSR #offset11: the link register first, then the jump (R140). -/
def execJsr (offset11 : BitVec 11) (s : State) : Result :=
  .next ((link s).setPc (pcRel11 offset11 s))

/-- JSRR BaseR: x[7] is written before BaseR is read, so that JSRR R7 goes on at the next instruction (R141; the
spec's decision D14, conflict C9; log 16). -/
def execJsrr (baseR : Reg) (s : State) : Result := .next (jumpThrough baseR (link s))

end Sys2Proof.Machine
end

