-- ==== Sys2Proof/Machine/LoadStore.lean ====
section
/-!
DEFINITION. Loads and stores: LD, LDI, LDR, LEA, ST, STI, STR (42_load_store.md). Every access goes through memRead and
memWrite; a read that ends the run ends the instruction before it writes anything (R158; the spec's decision D15).
-/

namespace Sys2Proof.Machine

/-- A load's data read at `a` and the write of its destination (R150, R154). -/
def loadFrom (dr : Reg) (a : Word) (s : State) : Result :=
  (memRead a s).andThen fun v s' => .next (writeResult dr v s')

/-- LD DR, #offset9 (R150). -/
def execLd (dr : Reg) (offset9 : BitVec 9) (s : State) : Result :=
  loadFrom dr (pcRel9 offset9 s) s

/-- LDI DR, #offset9: the pointer read, then the data read (R152). -/
def execLdi (dr : Reg) (offset9 : BitVec 9) (s : State) : Result :=
  (memRead (pcRel9 offset9 s) s).andThen fun p s' => loadFrom dr p s'

/-- LDR DR, BaseR, #offset6 (R154). -/
def execLdr (dr baseR : Reg) (offset6 : BitVec 6) (s : State) : Result :=
  loadFrom dr (baseOff6 baseR offset6 s) s

/-- LEA DR, #offset9: the address itself, no memory access; it sets the condition codes (R156, conflict C8). -/
def execLea (dr : Reg) (offset9 : BitVec 9) (s : State) : Result :=
  .next (writeResult dr (pcRel9 offset9 s) s)

/-- ST SR, #offset9 (R160). -/
def execSt (sr : Reg) (offset9 : BitVec 9) (s : State) : Result :=
  .next (memWrite (pcRel9 offset9 s) (s.reg sr) s)

/-- STI SR, #offset9: the pointer read, then the write (R162). -/
def execSti (sr : Reg) (offset9 : BitVec 9) (s : State) : Result :=
  (memRead (pcRel9 offset9 s) s).andThen fun p s' => .next (memWrite p (s'.reg sr) s')

/-- STR SR, BaseR, #offset6: the value of the register SR, never a register's index (R164, conflict C4). -/
def execStr (sr baseR : Reg) (offset6 : BitVec 6) (s : State) : Result :=
  .next (memWrite (baseOff6 baseR offset6 s) (s.reg sr) s)

end Sys2Proof.Machine
end

