-- ==== Sys2Proof/Machine/Operate.lean ====
section
/-!
DEFINITION. The operate instructions ADD, AND, NOT (40_operate.md). They raise nothing and access no memory; operands
are read before the destination is written.
-/

namespace Sys2Proof.Machine

/-- ADD DR, SR1, SR2 (R110). -/
def execAddReg (dr sr1 sr2 : Reg) (s : State) : Result :=
  .next (writeResult dr (s.reg sr1 + s.reg sr2) s)

/-- ADD DR, SR1, #imm5 (R111). -/
def execAddImm (dr sr1 : Reg) (imm5 : BitVec 5) (s : State) : Result :=
  .next (writeResult dr (s.reg sr1 + sext imm5) s)

/-- AND DR, SR1, SR2 (R114). -/
def execAndReg (dr sr1 sr2 : Reg) (s : State) : Result :=
  .next (writeResult dr (s.reg sr1 &&& s.reg sr2) s)

/-- AND DR, SR1, #imm5 (R115). -/
def execAndImm (dr sr1 : Reg) (imm5 : BitVec 5) (s : State) : Result :=
  .next (writeResult dr (s.reg sr1 &&& sext imm5) s)

/-- NOT DR, SR (R118). -/
def execNot (dr sr : Reg) (s : State) : Result :=
  .next (writeResult dr (~~~(s.reg sr)) s)

end Sys2Proof.Machine
end

