-- ==== Sys2Proof/Machine/System.lean ====
section
/-!
DEFINITION. RTI, TRAP with its six service routines, and the unassigned opcode (43_system.md). No routine writes psr or
pc (R186). Each routine starts in the state after trap entry, x[7] written (R184; the spec's decision D13).
-/

namespace Sys2Proof.Machine

/-- RTI: always Fatal(RtiUnsupported) (R180). -/
def execRti (s : State) : Result := .next (raiseFatal .rtiUnsupported s)

/-- GETC: one input unit into x[0], no echo (R190). -/
def getcRoutine (s : State) : Result :=
  (inputRead s).andThen fun c s' => .next (s'.setReg .r0 c)

/-- OUT: the low byte of x[0] (R191). -/
def outRoutine (s : State) : Result :=
  (emit (lowByte (s.reg .r0)) s).andThen fun _ s' => .next s'

/-- The characters of one PUTS word: its low byte (R192; the spec's decision D10). -/
def putsChars (w : Word) : List Byte := [lowByte w]

/-- The characters of one PUTSP word: the low byte, then the high byte unless it is zero (R196; the spec's decision
D11). -/
def putspChars (w : Word) : List Byte :=
  if highByte w = 0 then [lowByte w] else [lowByte w, highByte w]

/-- The scan of PUTS and PUTSP from address `a`: words are read through the intercept until a zero word, which is not
emitted; the address wraps (R192, R196; the spec's decision D12). The first argument bounds the words scanned. -/
def scan (chars : Word → List Byte) : Nat → Word → State → Result
  | 0, _, _ => .fault .scanNeverEnds
  | n + 1, a, s =>
    (memRead a s).andThen fun w s1 =>
      if w = 0 then .next s1
      else (emitAll (chars w) s1).andThen fun _ s2 => scan chars n (a + 1) s2

/-- Words after which a scan that has not ended never ends (U9; log 6): memory does not change during a scan, so once
the host's listed characters are used up, a whole turn of the address space without an end repeats for ever; and a
failing output request ends the scan within the words that count down to it. -/
def scanBound (s : State) : Nat :=
  0x10000 * (s.inputChars.length + 2) + s.outputFailsAfter.getD 0 + 1

/-- PUTS: one character a word from the address in x[0], which stays as it is (R192). -/
def putsRoutine (s : State) : Result := scan putsChars (scanBound s) (s.reg .r0) s

/-- IN: the prompt, one input unit into x[0], its low byte echoed (R193; the spec's decision D10). x[0] is written
before the echo, so it stays written when the echo fails. -/
def inRoutine (s : State) : Result :=
  (emitAll s.cfg.inPrompt s).andThen fun _ s1 =>
    (inputRead s1).andThen fun c s2 =>
      (emit (lowByte c) (s2.setReg .r0 c)).andThen fun _ s3 => .next s3

/-- PUTSP: two characters a word, low byte first (R196). -/
def putspRoutine (s : State) : Result := scan putspChars (scanBound s) (s.reg .r0) s

/-- HALT: the run ends cleanly (R198). -/
def haltRoutine (s : State) : Result := .next (terminate .haltTrap s)

/-- TRAP trapvect8: x[7] is written for every vector, then the vector selects the routine (R184, R186, R199). -/
def execTrap (trapvect8 : BitVec 8) (s : State) : Result :=
  if trapvect8 = 0x20 then getcRoutine (enterTrap s)
  else if trapvect8 = 0x21 then outRoutine (enterTrap s)
  else if trapvect8 = 0x22 then putsRoutine (enterTrap s)
  else if trapvect8 = 0x23 then inRoutine (enterTrap s)
  else if trapvect8 = 0x24 then putspRoutine (enterTrap s)
  else if trapvect8 = 0x25 then haltRoutine (enterTrap s)
  else .next (raiseFatal (.unknownTrapVector trapvect8) (enterTrap s))

/-- The unassigned opcode: reported with its address and its word, and execution goes on (R92, R200). -/
def execUnassigned (low12 : BitVec 12) (s : State) : Result :=
  .next (reportUnknownOpcode (s.pc - 1) (0b1101#4 ++ low12) s)

end Sys2Proof.Machine
end

