-- ==== Sys2Proof/Machine/Step.lean ====
section
/-!
DEFINITION. One step: fetch, increment, decode, execute (R80, R262).
-/

namespace Sys2Proof.Machine

/-- One step of the core. In a terminal state the core takes no further step and nothing changes (R220; log 7). -/
def step (s : State) : Host.Outcome State Fault Refusal :=
  if s.status = .running then (fetch s).andThen fun ir s' => exec (decode ir) s' else .next s

/-- `s` with the instruction word where step fetches its next instruction (log 28). -/
def State.withFetchWord (s : State) (nbits w : Nat) : State :=
  placeFetchWord (BitVec.ofNat 16 (w % 2 ^ nbits)) s

end Sys2Proof.Machine
end

