-- ==== Sys2Proof/Machine/Load.lean ====
section
/-!
DEFINITION. The load port: a program image written into memory before the first fetch (R15, R252, R253). This is how a
program comes to be in the machine; no step does it (log 23).
-/

namespace Sys2Proof.Machine

/-- The big-endian 16-bit words of a byte list of even length (R58, R252). -/
def imageWords : List Byte → List Word
  | hi :: lo :: rest => (hi ++ lo) :: imageWords rest
  | _ => []

/-- Load one image: a big-endian origin, then the words from the origin up. Words that land on a device address go to
its backing cell. pc becomes the origin; no register and no psr is written. Other images are refused (R252; the spec's
decision D19). -/
def loadImage (image : List Byte) (s : State) : Result :=
  if s.status = .running then
    match image with
    | hi :: lo :: rest =>
      if rest.length % 2 = 1 then .refused .imageOddLength
      else if (hi ++ lo : Word).toNat + rest.length / 2 ≤ 0x10000 then
        .next ((s.setMem (s.mem.writeWords (hi ++ lo) (imageWords rest))).setPc (hi ++ lo))
      else .refused .imageOverflow
    | _ => .refused .imageTooShort
  else .refused .loadAfterEnd

/-- The machine before its first fetch: reset, with at most one image loaded (R253). -/
def boot (image : Option (List Byte)) : Result :=
  match image with
  | none => .next State.reset
  | some bytes => loadImage bytes State.reset

end Sys2Proof.Machine
end

