-- ==== Sys2Proof/Safety.lean ====
section
/-!
DEFINITION. What claims speak of: the invariant of the machine, clean and safe runs, and what an instruction writes and
keeps. Each predicate is written from the spec's words, not from the operation it is used about.
-/

namespace Sys2Proof.Machine

/-! ### Invariant and runs -/

/-- Exactly one of N, Z, P is set (R36, R39). -/
def psrOneHot (psr : Word) : Bool :=
  psr.extractLsb' 0 3 == 0b100#3 || psr.extractLsb' 0 3 == 0b010#3 || psr.extractLsb' 0 3 == 0b001#3

/-- The invariant of the machine: memory in canonical form (log 1), a legal psr (R39), legal parameters (R9). -/
abbrev State.Inv (s : State) : Prop :=
  s.mem.wf = true ∧ psrOneHot s.psr = true ∧ s.cfg.wf = true

/-- The run has ended (R220). -/
abbrev State.Terminal (s : State) : Prop := s.status ≠ .running

/-- A state without a fatal error: running, or ended cleanly (R222, R225). -/
def State.safe (s : State) : Bool :=
  match s.status with
  | .running => true
  | .halted _ => true
  | .fatal _ => false

/-- A run of `k` steps is safe: it gets there, and no fatal error ends it. -/
def SafeRun (k : Nat) (s : State) : Prop :=
  match Sys2Proof.core.run k s with
  | .next t => State.safe t = true
  | .fault _ => False
  | .refused _ => False

/-- The host keeps its duty on the input port: no carriage return (R12, R246; log 24). -/
def hostNormalises (s : State) : Bool :=
  s.inputChars.all (· != 0x000D) && s.inputAfter != .forever 0x000D

/-! ### What an instruction keeps -/

/-- Every register but those named keeps its value. -/
def KeepsRegsBut (ws : List Reg) (s t : State) : Prop := ∀ r, r ∉ ws → t.reg r = s.reg r

/-- Every word of memory keeps its value. -/
def KeepsMem (s t : State) : Prop := ∀ a, t.mem.read a = s.mem.read a

/-- Every word of memory but the one at `b` keeps its value. -/
def KeepsMemBut (b : Word) (s t : State) : Prop := ∀ a, a ≠ b → t.mem.read a = s.mem.read a

/-- No port is used. -/
def KeepsPorts (s t : State) : Prop :=
  t.inputChars = s.inputChars ∧ t.inputAfter = s.inputAfter ∧ t.outputFailsAfter = s.outputFailsAfter ∧
    t.trace = s.trace

/-- The run goes on, or has ended, as before, with the same parameters. -/
def KeepsRun (s t : State) : Prop := t.status = s.status ∧ t.cfg = s.cfg

/-- Registers, psr and memory stay, and a trace is only added to: what ports may change. -/
def PortsOnly (s t : State) : Prop :=
  t.regs = s.regs ∧ t.pc = s.pc ∧ t.psr = s.psr ∧ t.mem = s.mem ∧ t.cfg = s.cfg ∧ s.trace <+: t.trace

/-! ### What an instruction writes -/

/-- psr[2:0] says the sign of `v`, and bits 15:3 are as before (R37). -/
def FlagsOf (v : Word) (s t : State) : Prop :=
  t.psr.getLsbD 2 = v.msb ∧ t.psr.getLsbD 1 = (v == 0) ∧ t.psr.getLsbD 0 = (!v.msb && v != 0) ∧
    ∀ i, 3 ≤ i → t.psr.getLsbD i = s.psr.getLsbD i

/-- `v` is written to the register `dr` with its condition codes, and only that, ports apart. -/
def WritesReg (dr : Reg) (v : Word) (s t : State) : Prop :=
  t.reg dr = v ∧ KeepsRegsBut [dr] s t ∧ FlagsOf v s t ∧ t.pc = s.pc ∧ KeepsMem s t ∧ KeepsRun s t

/-- Control goes to `target`; nothing changes but pc and the registers named. -/
def GoesTo (target : Word) (ws : List Reg) (s t : State) : Prop :=
  t.pc = target ∧ KeepsRegsBut ws s t ∧ t.psr = s.psr ∧ KeepsMem s t ∧ KeepsRun s t ∧ KeepsPorts s t

/-- `v` is stored at `a`, and nothing else changes, ports apart. -/
def Stores (a v : Word) (s t : State) : Prop :=
  t.mem.read a = v ∧ KeepsMemBut a s t ∧ KeepsRegsBut [] s t ∧ t.pc = s.pc ∧ t.psr = s.psr ∧ KeepsRun s t

/-- The run ends with `st`; no register but those named, no psr, pc or memory is written. -/
def EndsRun (st : RunStatus) (ws : List Reg) (s t : State) : Prop :=
  t.status = st ∧ t.cfg = s.cfg ∧ KeepsRegsBut ws s t ∧ t.pc = s.pc ∧ t.psr = s.psr ∧ KeepsMem s t

/-- A service routine has run to its end: x[7] holds the return address, and no register but x[7] and those named, no
psr, pc or memory is written (R184, R187). -/
def Serviced (ws : List Reg) (s t : State) : Prop :=
  t.reg .r7 = s.pc ∧ KeepsRegsBut (.r7 :: ws) s t ∧ t.pc = s.pc ∧ t.psr = s.psr ∧ KeepsMem s t ∧ KeepsRun s t

/-! ### What an instruction does on the ports -/

/-- One input request is made and answered (R12). -/
def TookInput (answer : InputAnswer) (s t : State) : Prop :=
  t.inputChars = s.inputChars.tail ∧ t.inputAfter = s.inputAfter ∧ t.outputFailsAfter = s.outputFailsAfter ∧
    t.trace = s.trace ++ [.input answer]

/-- The host answers Ok to the next `n` output requests at least (R13). -/
def AcceptsOutput (n : Nat) (s : State) : Prop := ∀ k, s.outputFailsAfter = some k → n ≤ k

/-- The characters are emitted in order, and no other port is used (R13). -/
def Emitted (cs : List Byte) (s t : State) : Prop :=
  t.inputChars = s.inputChars ∧ t.inputAfter = s.inputAfter ∧
    t.outputFailsAfter = s.outputFailsAfter.map (· - cs.length) ∧
    t.trace = s.trace ++ cs.map (fun c => .output c .ok)

/-! ### Reads of memory as the spec's table of addresses has them (R53 to R55) -/

/-- A read of the address asks the host: it is the device data register (R54). -/
def ReadsHost (a : Word) (s : State) : Prop := a ≠ s.cfg.devStatusAddr ∧ a = s.cfg.devDataAddr

/-- What a read answers at an address that does not ask the host: the status value, or the stored word (R53, R55). -/
def quietWord (a : Word) (s : State) : Word :=
  if a = s.cfg.devStatusAddr then s.cfg.statusReady else s.mem.read a

/-- A read of `a` in `s` answers `v` and leaves `s1` (R53): the status value or the stored word with nothing changed, or
the host's character with one input request made. -/
def ReadsTo (a : Word) (s : State) (v : Word) (s1 : State) : Prop :=
  (¬ ReadsHost a s ∧ v = quietWord a s ∧ s1 = s) ∨
  (ReadsHost a s ∧ nextAnswer s = some (.char v) ∧ PortsOnly s s1 ∧ s1.status = s.status ∧ TookInput (.char v) s s1)

/-- If the host answers end of input or I/O failure in `s`, the result is the end of the run in `s` and nothing else
(R54, R158, R225). -/
def EndsAtInput (s : State) (r : Host.Outcome State Fault Refusal) : Prop :=
  (nextAnswer s = some .endOfInput →
    ∃ t, r = .next t ∧ EndsRun (.halted .endOfInput) [] s t ∧ TookInput .endOfInput s t) ∧
  (nextAnswer s = some .ioFailure →
    ∃ t, r = .next t ∧ EndsRun (.fatal .ioFailure) [] s t ∧ TookInput .ioFailure s t)

/-- The loop of PUTS and PUTSP as the spec writes it, without a bound (R192, R196): from the address `a` and the state `s`
it comes to the state `t`, at a zero word, or because a read or an emission ended the run. -/
inductive ScanRuns (chars : Word → List Byte) : Word → State → State → Prop where
  | zeroWord {a : Word} {s t : State} (h : memRead a s = .value 0 t) : ScanRuns chars a s t
  | readEnds {a : Word} {s t : State} (h : memRead a s = .ended t) : ScanRuns chars a s t
  | emitEnds {a w : Word} {s s1 t : State} (h : memRead a s = .value w s1) (hw : w ≠ 0)
      (he : emitAll (chars w) s1 = .ended t) : ScanRuns chars a s t
  | goOn {a w : Word} {s s1 s2 t : State} (h : memRead a s = .value w s1) (hw : w ≠ 0)
      (he : emitAll (chars w) s1 = .value () s2) (hrest : ScanRuns chars (a + 1) s2 t) : ScanRuns chars a s t

/-- The same loop comes to a read that asks the host, and the host never answers it (R192, R245): from the address `a` and
the state `s`, every word read before is not zero, and its characters are emitted. -/
inductive ScanHolds (chars : Word → List Byte) : Word → State → Prop where
  | unanswered {a : Word} {s : State} (h : ReadsHost a s) (hn : nextAnswer s = none) : ScanHolds chars a s
  | goOn {a w : Word} {s s1 s2 : State} (h : memRead a s = .value w s1) (hw : w ≠ 0)
      (he : emitAll (chars w) s1 = .value () s2) (hrest : ScanHolds chars (a + 1) s2) : ScanHolds chars a s

/-- The two characters of a PUTSP word: the low byte, and the high byte unless it is zero (R196). -/
def packedChars (w : Word) : List Byte :=
  w.extractLsb' 0 8 :: (if w.extractLsb' 8 8 = 0 then [] else [w.extractLsb' 8 8])

/-- The bytes of a program image: a big-endian origin, then big-endian words (R252). -/
def imageBytes (o : Word) (ws : List Word) : List Byte :=
  (o :: ws).flatMap fun w => [w.extractLsb' 8 8, w.extractLsb' 0 8]

/-- The words of a list stand one after another in plain storage from the address `a` (R50, R52). -/
def WordsAt (a : Word) (ws : List Word) (s : State) : Prop :=
  ∀ i (h : i < ws.length),
    a + BitVec.ofNat 16 i ≠ s.cfg.devStatusAddr ∧ a + BitVec.ofNat 16 i ≠ s.cfg.devDataAddr ∧
      s.mem.read (a + BitVec.ofNat 16 i) = ws[i]

/-- Two states that differ at most in the hidden backing cells of the device addresses (R43). -/
def AgreeOffDevices (s t : State) : Prop :=
  t.regs = s.regs ∧ t.pc = s.pc ∧ t.psr = s.psr ∧ t.status = s.status ∧ t.cfg = s.cfg ∧ KeepsPorts s t ∧
    ∀ a, a ≠ s.cfg.devStatusAddr → a ≠ s.cfg.devDataAddr → t.mem.read a = s.mem.read a

/-! ### The writers of the state, as the spec lists them -/

/-- The registers an instruction may write: the table of R32. -/
def regWriters : Instr → List Reg
  | .addReg dr _ _ | .addImm dr _ _ | .andReg dr _ _ | .andImm dr _ _ | .not dr _ => [dr]
  | .ld dr _ | .ldi dr _ | .ldr dr _ _ | .lea dr _ => [dr]
  | .jsr _ | .jsrr _ => [.r7]
  | .trap v => if v = 0x20 ∨ v = 0x23 then [.r7, .r0] else [.r7]
  | .br _ _ _ _ | .jmp _ | .ret | .st _ _ | .sti _ _ | .str _ _ _ | .rti | .unassigned _ => []

/-- The destination whose value an instruction gives to setcc: the list of R38. -/
def setccOf : Instr → Option Reg
  | .addReg dr _ _ | .addImm dr _ _ | .andReg dr _ _ | .andImm dr _ _ | .not dr _ => some dr
  | .ld dr _ | .ldi dr _ | .ldr dr _ _ | .lea dr _ => some dr
  | .br _ _ _ _ | .jmp _ | .ret | .jsr _ | .jsrr _ | .st _ _ | .sti _ _ | .str _ _ _ => none
  | .rti | .trap _ | .unassigned _ => none

/-- The instructions that write pc after the fetch increment: the list of R34. -/
def writesPc : Instr → Bool
  | .br _ _ _ _ | .jmp _ | .ret | .jsr _ | .jsrr _ => true
  | .addReg _ _ _ | .addImm _ _ _ | .andReg _ _ _ | .andImm _ _ _ | .not _ _ => false
  | .ld _ _ | .ldi _ _ | .ldr _ _ _ | .lea _ _ | .st _ _ | .sti _ _ | .str _ _ _ => false
  | .rti | .trap _ | .unassigned _ => false

/-- The instructions that write memory: the table of R51. -/
def writesMem : Instr → Bool
  | .st _ _ | .sti _ _ | .str _ _ _ => true
  | .addReg _ _ _ | .addImm _ _ _ | .andReg _ _ _ | .andImm _ _ _ | .not _ _ => false
  | .br _ _ _ _ | .jmp _ | .ret | .jsr _ | .jsrr _ => false
  | .ld _ _ | .ldi _ _ | .ldr _ _ _ | .lea _ _ | .rti | .trap _ | .unassigned _ => false

end Sys2Proof.Machine
end

