-- ==== Sys2Proof/Certificates/Slice0/Obligations.lean ====
section
/-!
DEFINITION. The statements for the provers. Each docstring names the rule of spec/ it formalises; where a statement rests
on a choice (the spec's own decision D<n>, or the model's, log <n>), the docstring says so.

In every statement about exec, `s` is the state after the fetch: s.pc is the address of the instruction + 1 (R33).
-/

open Sys2Proof Sys2Proof.Machine

/-! ### Encoding -/

/-- Words written out bit by bit from the spec's encodings decode to their instructions (95_test_vectors.md; layout
D1). -/
def Obligations.SampleWordsDecode : Prop :=
  decode 0b0001_000_001_0_00_010 = .addReg .r0 .r1 .r2 ∧
  decode 0b0101_001_001_1_11111 = .andImm .r1 .r1 0b11111 ∧
  decode 0b0000_010_000000101 = .br false true false 5 ∧
  decode 0b0100_1_10000000000 = .jsr 0b10000000000 ∧
  decode 0b1010_011_000000100 = .ldi .r3 4 ∧
  decode 0b0111_010_001_000001 = .str .r2 .r1 1 ∧
  decode 0b1111_0000_00100101 = .trap 0x25 ∧
  decode 0b1101_000100100011 = .unassigned 0x123

/-- Decoding an encoded well-formed instruction gives it back, every operand at every value (R83, R88, R90; layout
D1). -/
def Obligations.DecodeEncodeAgree : Prop :=
  ∀ i : Instr, i.wf = true → decode (encode i) = i

/-- Every word decodes to a well-formed instruction, and its canonical word is another word of that instruction (R88,
R93, R94). -/
def Obligations.EveryWordIsSomeInstruction : Prop :=
  ∀ w : Word, (decode w).wf = true ∧ decode (encode (decode w)) = decode w

/-- The rows of opcode_table.json, each by its match and mask: a word decodes to a row's instruction exactly when it
matches the row (R90, R91; JMP without the words of RET, log 14). -/
def Obligations.RowsClassifyWords : Prop :=
  ∀ w : Word,
    (w &&& 0xF020 = 0x1000 ↔ ∃ a b c, decode w = .addReg a b c) ∧
    (w &&& 0xF020 = 0x1020 ↔ ∃ a b c, decode w = .addImm a b c) ∧
    (w &&& 0xF020 = 0x5000 ↔ ∃ a b c, decode w = .andReg a b c) ∧
    (w &&& 0xF020 = 0x5020 ↔ ∃ a b c, decode w = .andImm a b c) ∧
    (w &&& 0xF000 = 0x9000 ↔ ∃ a b, decode w = .not a b) ∧
    (w &&& 0xF000 = 0x0000 ↔ ∃ n z p o, decode w = .br n z p o) ∧
    (w &&& 0xF000 = 0xC000 ∧ w &&& 0xF1C0 ≠ 0xC1C0 ↔ ∃ a, decode w = .jmp a) ∧
    (w &&& 0xF1C0 = 0xC1C0 ↔ decode w = .ret) ∧
    (w &&& 0xF800 = 0x4800 ↔ ∃ o, decode w = .jsr o) ∧
    (w &&& 0xF800 = 0x4000 ↔ ∃ a, decode w = .jsrr a) ∧
    (w &&& 0xF000 = 0x2000 ↔ ∃ a o, decode w = .ld a o) ∧
    (w &&& 0xF000 = 0xA000 ↔ ∃ a o, decode w = .ldi a o) ∧
    (w &&& 0xF000 = 0x6000 ↔ ∃ a b o, decode w = .ldr a b o) ∧
    (w &&& 0xF000 = 0xE000 ↔ ∃ a o, decode w = .lea a o) ∧
    (w &&& 0xF000 = 0x3000 ↔ ∃ a o, decode w = .st a o) ∧
    (w &&& 0xF000 = 0xB000 ↔ ∃ a o, decode w = .sti a o) ∧
    (w &&& 0xF000 = 0x7000 ↔ ∃ a b o, decode w = .str a b o) ∧
    (w &&& 0xF000 = 0x8000 ↔ decode w = .rti) ∧
    (w &&& 0xF000 = 0xF000 ↔ ∃ v, decode w = .trap v) ∧
    (w &&& 0xF000 = 0xD000 ↔ ∃ x, decode w = .unassigned x)

/-- The bits R87 calls ignored do not matter: a word decodes as its canonical form (the spec's decision D7; for the
unassigned opcode see UnassignedOpcodeReports, whose report shows the whole word). -/
def Obligations.IgnoredBitsAreIgnored : Prop :=
  ∀ w : Word,
    (w.extractLsb' 12 4 = 0x1#4 ∨ w.extractLsb' 12 4 = 0x5#4 → w.getLsbD 5 = false →
      decode w = decode (w &&& 0xFFE7)) ∧
    (w.extractLsb' 12 4 = 0x9#4 → decode w = decode (w ||| 0x003F)) ∧
    (w.extractLsb' 12 4 = 0xC#4 → decode w = decode (w &&& 0xF1C0)) ∧
    (w.extractLsb' 12 4 = 0x4#4 → w.getLsbD 11 = false → decode w = decode (w &&& 0xF9C0)) ∧
    (w.extractLsb' 12 4 = 0x8#4 → decode w = decode (w &&& 0xF000)) ∧
    (w.extractLsb' 12 4 = 0xF#4 → decode w = decode (w &&& 0xF0FF))

/-! ### Memory and devices -/

/-- Two memories in canonical form that read alike at every address are the same data (log 1). -/
def Obligations.CanonicalMemoriesAreExtensional : Prop :=
  ∀ m n : Memory, m.wf = true → n.wf = true → (∀ a : Word, m.read a = n.read a) → m = n

/-- The read contract (R53, R54, R55; the character unchanged by decision D9): the status register reads ready,
storage reads the stored word, and the data register makes one input request and does with the answer what R54 says; a
request never answered holds the core (R245, log 5). -/
def Obligations.MemReadFollowsTheIntercept : Prop :=
  ∀ (a : Word) (s : State),
    (a = s.cfg.devStatusAddr → memRead a s = .value s.cfg.statusReady s) ∧
    (a ≠ s.cfg.devStatusAddr → a ≠ s.cfg.devDataAddr → memRead a s = .value (s.mem.read a) s) ∧
    (ReadsHost a s →
      (∀ c, nextAnswer s = some (.char c) →
        ∃ t, memRead a s = .value c t ∧ PortsOnly s t ∧ t.status = s.status ∧ TookInput (.char c) s t) ∧
      (nextAnswer s = some .endOfInput →
        ∃ t, memRead a s = .ended t ∧ EndsRun (.halted .endOfInput) [] s t ∧ TookInput .endOfInput s t) ∧
      (nextAnswer s = some .ioFailure →
        ∃ t, memRead a s = .ended t ∧ EndsRun (.fatal .ioFailure) [] s t ∧ TookInput .ioFailure s t) ∧
      (nextAnswer s = none → memRead a s = .stuck .inputNeverAnswered))

/-- A word stored at a device address is never read back (R57): STR to the status register, then LDR from it, loads
STATUS_READY_VALUE; STR to the data register, then LDR from it, loads the host's next character. -/
def Obligations.DeviceStoreIsNeverReadBack : Prop :=
  ∀ (s : State) (sr base dr : Reg), s.cfg.wf = true →
    (s.reg base = s.cfg.devStatusAddr →
      ∃ t u, exec (.str sr base 0) s = .next t ∧ exec (.ldr dr base 0) t = .next u ∧
        WritesReg dr s.cfg.statusReady t u ∧ KeepsPorts s u) ∧
    (∀ c, s.reg base = s.cfg.devDataAddr → nextAnswer s = some (.char c) →
      ∃ t u, exec (.str sr base 0) s = .next t ∧ exec (.ldr dr base 0) t = .next u ∧
        WritesReg dr c t u ∧ TookInput (.char c) s u)

/-- A store over the next instruction is what the next step runs (R66, R261): ST SR, #0, then a step. -/
def Obligations.StoredWordIsExecutedNext : Prop :=
  ∀ (s : State) (sr : Reg), s.mem.wf = true → s.status = .running →
    s.pc ≠ s.cfg.devStatusAddr → s.pc ≠ s.cfg.devDataAddr →
    ∃ t, exec (.st sr 0) s = .next t ∧ Stores s.pc (s.reg sr) s t ∧
      step t = exec (decode (s.reg sr)) (t.setPc (t.pc + 1))

/-- Nothing can observe the hidden backing cells (R43): from two states that differ at most in them, a step gives
states that differ at most in them, or stops for the same reason. -/
def Obligations.BackingCellsAreUnobservable : Prop :=
  ∀ s s' : State, s.mem.wf = true → s'.mem.wf = true → AgreeOffDevices s s' →
    (∀ t, step s = .next t → ∃ t', step s' = .next t' ∧ AgreeOffDevices t t') ∧
    (∀ f, step s = .fault f → step s' = .fault f)

/-! ### Condition codes -/

/-- setcc(v) (R37): N, Z, P say the sign of v, exactly one of them holds, bits 15:3 and the rest of the state stay. -/
def Obligations.SetccSaysTheSign : Prop :=
  ∀ (v : Word) (s : State),
    FlagsOf v s (setcc v s) ∧ psrOneHot (setcc v s).psr = true ∧
      KeepsRegsBut [] s (setcc v s) ∧ (setcc v s).pc = s.pc ∧ KeepsMem s (setcc v s) ∧
      KeepsRun s (setcc v s) ∧ KeepsPorts s (setcc v s)

/-- Who calls setcc (R38, an ended run as R38 itself says): an instruction of the list sets the flags of the value it
wrote, unless the run ended inside it; every other leaves psr unchanged. -/
def Obligations.SetccCallers : Prop :=
  ∀ (i : Instr) (s t : State), s.status = .running → exec i s = .next t →
    match setccOf i with
    | some dr => (t.status = .running → FlagsOf (t.reg dr) s t) ∧ (t.status ≠ .running → t.psr = s.psr)
    | none => t.psr = s.psr

/-! ### Operate instructions -/

/-- ADD, register form (R110; word layout: the spec's decision D1, log 10). -/
def Obligations.AddRegisterForm : Prop :=
  (∀ w : Word, w.extractLsb' 12 4 = 0b0001#4 → w.getLsbD 5 = false →
    decode w = .addReg (Reg.ofBits (w.extractLsb' 9 3)) (Reg.ofBits (w.extractLsb' 6 3))
      (Reg.ofBits (w.extractLsb' 0 3))) ∧
  ∀ (dr sr1 sr2 : Reg) (s : State),
    ∃ t, exec (.addReg dr sr1 sr2) s = .next t ∧ WritesReg dr (s.reg sr1 + s.reg sr2) s t ∧ KeepsPorts s t

/-- ADD, immediate form (R111; layout D1). -/
def Obligations.AddImmediateForm : Prop :=
  (∀ w : Word, w.extractLsb' 12 4 = 0b0001#4 → w.getLsbD 5 = true →
    decode w = .addImm (Reg.ofBits (w.extractLsb' 9 3)) (Reg.ofBits (w.extractLsb' 6 3)) (w.extractLsb' 0 5)) ∧
  ∀ (dr sr1 : Reg) (imm5 : BitVec 5) (s : State),
    ∃ t, exec (.addImm dr sr1 imm5) s = .next t ∧
      WritesReg dr (s.reg sr1 + BitVec.ofInt 16 imm5.toInt) s t ∧ KeepsPorts s t

/-- AND, register form (R114; layout D1). -/
def Obligations.AndRegisterForm : Prop :=
  (∀ w : Word, w.extractLsb' 12 4 = 0b0101#4 → w.getLsbD 5 = false →
    decode w = .andReg (Reg.ofBits (w.extractLsb' 9 3)) (Reg.ofBits (w.extractLsb' 6 3))
      (Reg.ofBits (w.extractLsb' 0 3))) ∧
  ∀ (dr sr1 sr2 : Reg) (s : State),
    ∃ t, exec (.andReg dr sr1 sr2) s = .next t ∧ WritesReg dr (s.reg sr1 &&& s.reg sr2) s t ∧ KeepsPorts s t

/-- AND, immediate form (R115; layout D1). -/
def Obligations.AndImmediateForm : Prop :=
  (∀ w : Word, w.extractLsb' 12 4 = 0b0101#4 → w.getLsbD 5 = true →
    decode w = .andImm (Reg.ofBits (w.extractLsb' 9 3)) (Reg.ofBits (w.extractLsb' 6 3)) (w.extractLsb' 0 5)) ∧
  ∀ (dr sr1 : Reg) (imm5 : BitVec 5) (s : State),
    ∃ t, exec (.andImm dr sr1 imm5) s = .next t ∧
      WritesReg dr (s.reg sr1 &&& BitVec.ofInt 16 imm5.toInt) s t ∧ KeepsPorts s t

/-- NOT (R118; layout D1). -/
def Obligations.NotComplements : Prop :=
  (∀ w : Word, w.extractLsb' 12 4 = 0b1001#4 →
    decode w = .not (Reg.ofBits (w.extractLsb' 9 3)) (Reg.ofBits (w.extractLsb' 6 3))) ∧
  ∀ (dr sr : Reg) (s : State),
    ∃ t, exec (.not dr sr) s = .next t ∧ WritesReg dr (~~~(s.reg sr)) s t ∧ KeepsPorts s t

/-- Register and immediate form agree where the register holds the immediate's value (R112, R116). -/
def Obligations.FormsOfAddAndAndAgree : Prop :=
  ∀ (dr sr1 sr2 : Reg) (imm5 : BitVec 5) (s : State), s.reg sr2 = BitVec.ofInt 16 imm5.toInt →
    exec (.addReg dr sr1 sr2) s = exec (.addImm dr sr1 imm5) s ∧
    exec (.andReg dr sr1 sr2) s = exec (.andImm dr sr1 imm5) s

/-- NOT R, R, then ADD R, R, #1 negates (R119). -/
def Obligations.NotThenAddOneNegates : Prop :=
  ∀ (r : Reg) (s : State),
    ∃ t u, exec (.not r r) s = .next t ∧ exec (.addImm r r 1) t = .next u ∧
      WritesReg r (BitVec.ofNat 16 (0x10000 - (s.reg r).toNat)) s u ∧ KeepsPorts s u

/-! ### Control transfer -/

/-- BR (R130; layout D1): taken exactly when a named condition holds, to the incremented pc plus the extended offset;
under a legal psr, BRnzp is always taken (R39, which rests on the reset value of decision D5). -/
def Obligations.BranchTakenOnItsConditions : Prop :=
  (∀ w : Word, w.extractLsb' 12 4 = 0b0000#4 →
    decode w = .br (w.getLsbD 11) (w.getLsbD 10) (w.getLsbD 9) (w.extractLsb' 0 9)) ∧
  ∀ (n z p : Bool) (offset9 : BitVec 9) (s : State),
    (∃ t, exec (.br n z p offset9) s = .next t ∧
      GoesTo (if (n && s.psr.getLsbD 2) || (z && s.psr.getLsbD 1) || (p && s.psr.getLsbD 0)
        then s.pc + BitVec.ofInt 16 offset9.toInt else s.pc) [] s t) ∧
    (psrOneHot s.psr = true → ∃ t, exec (.br true true true offset9) s = .next t ∧
      t.pc = s.pc + BitVec.ofInt 16 offset9.toInt)

/-- JMP and RET (R136; layout D1; RET a constructor of its own, log 14): pc becomes the base register, R7 for RET;
nothing else changes. -/
def Obligations.JumpAndReturnThroughRegister : Prop :=
  (∀ w : Word, w.extractLsb' 12 4 = 0b1100#4 → w.extractLsb' 6 3 ≠ 0b111#3 →
    decode w = .jmp (Reg.ofBits (w.extractLsb' 6 3))) ∧
  (∀ w : Word, w.extractLsb' 12 4 = 0b1100#4 → w.extractLsb' 6 3 = 0b111#3 → decode w = .ret) ∧
  (∀ (baseR : Reg) (s : State), ∃ t, exec (.jmp baseR) s = .next t ∧ GoesTo (s.reg baseR) [] s t) ∧
  (∀ s : State, ∃ t, exec .ret s = .next t ∧ GoesTo (s.reg .r7) [] s t)

/-- JSR (R140; layout D1): x[7] holds the return address, pc the target. -/
def Obligations.JsrLinksAndJumps : Prop :=
  (∀ w : Word, w.extractLsb' 12 4 = 0b0100#4 → w.getLsbD 11 = true → decode w = .jsr (w.extractLsb' 0 11)) ∧
  ∀ (offset11 : BitVec 11) (s : State),
    ∃ t, exec (.jsr offset11) s = .next t ∧ t.reg .r7 = s.pc ∧
      GoesTo (s.pc + BitVec.ofInt 16 offset11.toInt) [.r7] s t

/-- JSRR (R141, R142; layout D1): x[7] holds the return address, and pc the base register's value, read after x[7] is
written, so that JSRR R7 goes on at the next instruction (the spec's decision D14, log 16). -/
def Obligations.JsrrLinksThenReadsItsBase : Prop :=
  (∀ w : Word, w.extractLsb' 12 4 = 0b0100#4 → w.getLsbD 11 = false →
    decode w = .jsrr (Reg.ofBits (w.extractLsb' 6 3))) ∧
  ∀ (baseR : Reg) (s : State),
    ∃ t, exec (.jsrr baseR) s = .next t ∧ t.reg .r7 = s.pc ∧
      GoesTo (if baseR = .r7 then s.pc else s.reg baseR) [.r7] s t

/-! ### Loads and stores -/

/-- LD (R150; layout D1): the word the address reads as, its flags, and where the read is the data register the host's
answer, which may end the run (R158, decision D15). -/
def Obligations.LdLoadsPcRelative : Prop :=
  (∀ w : Word, w.extractLsb' 12 4 = 0b0010#4 →
    decode w = .ld (Reg.ofBits (w.extractLsb' 9 3)) (w.extractLsb' 0 9)) ∧
  ∀ (dr : Reg) (offset9 : BitVec 9) (s : State) (a : Word), a = s.pc + BitVec.ofInt 16 offset9.toInt →
    (¬ ReadsHost a s →
      ∃ t, exec (.ld dr offset9) s = .next t ∧ WritesReg dr (quietWord a s) s t ∧ KeepsPorts s t) ∧
    (∀ c, ReadsHost a s → nextAnswer s = some (.char c) →
      ∃ t, exec (.ld dr offset9) s = .next t ∧ WritesReg dr c s t ∧ TookInput (.char c) s t) ∧
    (ReadsHost a s → EndsAtInput s (exec (.ld dr offset9) s))

/-- LDI (R152; layout D1): the word at the address the pointer names, pointer and data each read through the
intercept, in that order; either read may end the run, and then nothing is written (R158, decision D15). -/
def Obligations.LdiLoadsThroughPointer : Prop :=
  (∀ w : Word, w.extractLsb' 12 4 = 0b1010#4 →
    decode w = .ldi (Reg.ofBits (w.extractLsb' 9 3)) (w.extractLsb' 0 9)) ∧
  ∀ (dr : Reg) (offset9 : BitVec 9) (s : State) (a : Word), a = s.pc + BitVec.ofInt 16 offset9.toInt →
    (¬ ReadsHost a s → ¬ ReadsHost (quietWord a s) s →
      ∃ t, exec (.ldi dr offset9) s = .next t ∧ WritesReg dr (quietWord (quietWord a s) s) s t ∧ KeepsPorts s t) ∧
    (∀ p s1 v s2, ReadsTo a s p s1 → ReadsTo p s1 v s2 →
      ∃ t, exec (.ldi dr offset9) s = .next t ∧ WritesReg dr v s t ∧ KeepsPorts s2 t) ∧
    (ReadsHost a s → EndsAtInput s (exec (.ldi dr offset9) s)) ∧
    (∀ p s1, ReadsTo a s p s1 → ReadsHost p s1 → EndsAtInput s1 (exec (.ldi dr offset9) s))

/-- LDR (R154; layout D1; an ending read by decision D15): as LD, at the old base register plus the extended offset.
-/
def Obligations.LdrLoadsBasePlusOffset : Prop :=
  (∀ w : Word, w.extractLsb' 12 4 = 0b0110#4 →
    decode w = .ldr (Reg.ofBits (w.extractLsb' 9 3)) (Reg.ofBits (w.extractLsb' 6 3)) (w.extractLsb' 0 6)) ∧
  ∀ (dr baseR : Reg) (offset6 : BitVec 6) (s : State) (a : Word),
    a = s.reg baseR + BitVec.ofInt 16 offset6.toInt →
    (¬ ReadsHost a s →
      ∃ t, exec (.ldr dr baseR offset6) s = .next t ∧ WritesReg dr (quietWord a s) s t ∧ KeepsPorts s t) ∧
    (∀ c, ReadsHost a s → nextAnswer s = some (.char c) →
      ∃ t, exec (.ldr dr baseR offset6) s = .next t ∧ WritesReg dr c s t ∧ TookInput (.char c) s t) ∧
    (ReadsHost a s → EndsAtInput s (exec (.ldr dr baseR offset6) s))

/-- LEA (R156; layout D1): the address itself with its flags; no memory access, whatever the address. -/
def Obligations.LeaLoadsTheAddress : Prop :=
  (∀ w : Word, w.extractLsb' 12 4 = 0b1110#4 →
    decode w = .lea (Reg.ofBits (w.extractLsb' 9 3)) (w.extractLsb' 0 9)) ∧
  ∀ (dr : Reg) (offset9 : BitVec 9) (s : State),
    ∃ t, exec (.lea dr offset9) s = .next t ∧
      WritesReg dr (s.pc + BitVec.ofInt 16 offset9.toInt) s t ∧ KeepsPorts s t

/-- ST (R160; layout D1): the register's value at the PC-relative address, device addresses included (decision D4);
nothing else changes. -/
def Obligations.StStoresPcRelative : Prop :=
  (∀ w : Word, w.extractLsb' 12 4 = 0b0011#4 →
    decode w = .st (Reg.ofBits (w.extractLsb' 9 3)) (w.extractLsb' 0 9)) ∧
  ∀ (sr : Reg) (offset9 : BitVec 9) (s : State), s.mem.wf = true →
    ∃ t, exec (.st sr offset9) s = .next t ∧ Stores (pcRel9 offset9 s) (s.reg sr) s t ∧
      pcRel9 offset9 s = s.pc + BitVec.ofInt 16 offset9.toInt ∧ KeepsPorts s t

/-- STI (R162; layout D1): the register's value at the address the pointer names; the pointer read may end the run,
and then nothing is written. -/
def Obligations.StiStoresThroughPointer : Prop :=
  (∀ w : Word, w.extractLsb' 12 4 = 0b1011#4 →
    decode w = .sti (Reg.ofBits (w.extractLsb' 9 3)) (w.extractLsb' 0 9)) ∧
  ∀ (sr : Reg) (offset9 : BitVec 9) (s : State) (a : Word), s.mem.wf = true →
    a = s.pc + BitVec.ofInt 16 offset9.toInt →
    (¬ ReadsHost a s →
      ∃ t, exec (.sti sr offset9) s = .next t ∧ Stores (quietWord a s) (s.reg sr) s t ∧ KeepsPorts s t) ∧
    (∀ c, ReadsHost a s → nextAnswer s = some (.char c) →
      ∃ t, exec (.sti sr offset9) s = .next t ∧ Stores c (s.reg sr) s t ∧ TookInput (.char c) s t) ∧
    (ReadsHost a s → EndsAtInput s (exec (.sti sr offset9) s))

/-- STR (R164; layout D1; device addresses by decision D4): the VALUE of the register at base plus offset; nothing
else changes. -/
def Obligations.StrStoresBasePlusOffset : Prop :=
  (∀ w : Word, w.extractLsb' 12 4 = 0b0111#4 →
    decode w = .str (Reg.ofBits (w.extractLsb' 9 3)) (Reg.ofBits (w.extractLsb' 6 3)) (w.extractLsb' 0 6)) ∧
  ∀ (sr baseR : Reg) (offset6 : BitVec 6) (s : State), s.mem.wf = true →
    ∃ t, exec (.str sr baseR offset6) s = .next t ∧ Stores (baseOff6 baseR offset6 s) (s.reg sr) s t ∧
      baseOff6 baseR offset6 s = s.reg baseR + BitVec.ofInt 16 offset6.toInt ∧ KeepsPorts s t

/-! ### System instructions and service routines -/

/-- RTI (R180; layout D1): the run ends with Fatal(RtiUnsupported), whatever the ignored bits, and nothing else
changes. -/
def Obligations.RtiIsFatal : Prop :=
  (∀ w : Word, w.extractLsb' 12 4 = 0b1000#4 → decode w = .rti) ∧
  ∀ s : State, ∃ t, exec .rti s = .next t ∧ EndsRun (.fatal .rtiUnsupported) [] s t ∧ KeepsPorts s t

/-- TRAP, every vector (R184, R186, R227; layout D1, order of decision D13): x[7] holds the return address, and no
psr, pc, memory or parameter changes; no register but x[7], and x[0] for GETC and IN, is written; the record of the
ports only grows (log 22). -/
def Obligations.EveryTrapLinks : Prop :=
  (∀ w : Word, w.extractLsb' 12 4 = 0b1111#4 → decode w = .trap (w.extractLsb' 0 8)) ∧
  ∀ (v : BitVec 8) (s t : State), exec (.trap v) s = .next t →
    t.reg .r7 = s.pc ∧ KeepsRegsBut (if v = 0x20 ∨ v = 0x23 then [.r7, .r0] else [.r7]) s t ∧
      t.pc = s.pc ∧ t.psr = s.psr ∧ KeepsMem s t ∧ t.cfg = s.cfg ∧ s.trace <+: t.trace

/-- GETC (R190; x[7] first by decision D13, the value unchanged by D9): one input unit into x[0], nothing emitted; end
of input and I/O failure end the run with x[0] unchanged. -/
def Obligations.GetcReadsOneCharacter : Prop :=
  ∀ s : State,
    (∀ c, nextAnswer s = some (.char c) →
      ∃ t, exec (.trap 0x20) s = .next t ∧ Serviced [.r0] s t ∧ t.reg .r0 = c ∧ TookInput (.char c) s t) ∧
    (nextAnswer s = some .endOfInput →
      ∃ t, exec (.trap 0x20) s = .next t ∧ EndsRun (.halted .endOfInput) [.r7] s t ∧ t.reg .r7 = s.pc ∧
        TookInput .endOfInput s t) ∧
    (nextAnswer s = some .ioFailure →
      ∃ t, exec (.trap 0x20) s = .next t ∧ EndsRun (.fatal .ioFailure) [.r7] s t ∧ t.reg .r7 = s.pc ∧
        TookInput .ioFailure s t)

/-- OUT (R191): the low byte of x[0]; a failing request ends the run (R187, decision D16), x[7] being written before
(decision D13). That the failed character does not count as emitted, t.output = s.output, is the model's deduction
(log 21). -/
def Obligations.OutEmitsLowByte : Prop :=
  ∀ s : State,
    (AcceptsOutput 1 s →
      ∃ t, exec (.trap 0x21) s = .next t ∧ Serviced [] s t ∧ Emitted [(s.reg .r0).extractLsb' 0 8] s t) ∧
    (s.outputFailsAfter = some 0 →
      ∃ t, exec (.trap 0x21) s = .next t ∧ EndsRun (.fatal .ioFailure) [.r7] s t ∧ t.reg .r7 = s.pc ∧
        t.trace = s.trace ++ [.output ((s.reg .r0).extractLsb' 0 8) .ioFailure] ∧ t.output = s.output)

/-- PUTS (R192; decisions D10, D12): a string of nonzero words in plain storage, ended by a zero word, is emitted, the
low byte of each word, and nothing after the zero word; R0 is unchanged. -/
def Obligations.PutsEmitsTheString : Prop :=
  ∀ (ws : List Word) (s : State), (∀ w ∈ ws, w ≠ 0) → WordsAt (s.reg .r0) (ws ++ [0]) s →
    AcceptsOutput ws.length s →
    ∃ t, exec (.trap 0x22) s = .next t ∧ Serviced [] s t ∧ Emitted (ws.map (·.extractLsb' 0 8)) s t

/-- PUTSP (R196; decisions D11, D12): each nonzero word's low byte, then its high byte unless that is zero. -/
def Obligations.PutspEmitsPackedString : Prop :=
  ∀ (ws : List Word) (s : State), (∀ w ∈ ws, w ≠ 0) → WordsAt (s.reg .r0) (ws ++ [0]) s →
    AcceptsOutput (ws.flatMap packedChars).length s →
    ∃ t, exec (.trap 0x24) s = .next t ∧ Serviced [] s t ∧ Emitted (ws.flatMap packedChars) s t

/-- PUTS and PUTSP are the spec's unbounded loops (R192, R196, U9; log 6): they come to a next state exactly when the
loop does, and to the same one; the model's bound on the words scanned cuts no scan short. -/
def Obligations.BoundedScansAreTheSpecsLoops : Prop :=
  ∀ s t : State,
    (exec (.trap 0x22) s = .next t ↔ ScanRuns (fun w => [w.extractLsb' 0 8]) (s.reg .r0) (s.setReg .r7 s.pc) t) ∧
    (exec (.trap 0x24) s = .next t ↔ ScanRuns packedChars (s.reg .r0) (s.setReg .r7 s.pc) t)

/-- IN (R193; decisions D10, D13, D16, D17): the prompt, one input unit into x[0], the echo of its low byte, in this
order; an ending input request comes after the prompt. A failing echo comes after the write of x[0]; a failing prompt
comes before the request, so that no input is asked for. Either way the characters emitted before stay emitted (R187,
R226); the failed one stands in the trace as failed (log 21, 22). -/
def Obligations.InPromptsReadsAndEchoes : Prop :=
  ∀ s : State,
    (∀ c, nextAnswer s = some (.char c) → AcceptsOutput (s.cfg.inPrompt.length + 1) s →
      ∃ t, exec (.trap 0x23) s = .next t ∧ Serviced [.r0] s t ∧ t.reg .r0 = c ∧
        t.inputChars = s.inputChars.tail ∧
        t.trace = s.trace ++ s.cfg.inPrompt.map (fun ch => .output ch .ok) ++
          [.input (.char c), .output (c.extractLsb' 0 8) .ok]) ∧
    (nextAnswer s = some .endOfInput → AcceptsOutput s.cfg.inPrompt.length s →
      ∃ t, exec (.trap 0x23) s = .next t ∧ EndsRun (.halted .endOfInput) [.r7] s t ∧ t.reg .r7 = s.pc ∧
        t.trace = s.trace ++ s.cfg.inPrompt.map (fun ch => .output ch .ok) ++ [.input .endOfInput]) ∧
    (nextAnswer s = some .ioFailure → AcceptsOutput s.cfg.inPrompt.length s →
      ∃ t, exec (.trap 0x23) s = .next t ∧ EndsRun (.fatal .ioFailure) [.r7] s t ∧ t.reg .r7 = s.pc ∧
        t.trace = s.trace ++ s.cfg.inPrompt.map (fun ch => .output ch .ok) ++ [.input .ioFailure]) ∧
    (∀ c, nextAnswer s = some (.char c) → s.outputFailsAfter = some s.cfg.inPrompt.length →
      ∃ t, exec (.trap 0x23) s = .next t ∧ EndsRun (.fatal .ioFailure) [.r7, .r0] s t ∧ t.reg .r7 = s.pc ∧
        t.reg .r0 = c ∧ t.inputChars = s.inputChars.tail ∧
        t.trace = s.trace ++ s.cfg.inPrompt.map (fun ch => .output ch .ok) ++
          [.input (.char c), .output (c.extractLsb' 0 8) .ioFailure]) ∧
    (∀ k (hk : k < s.cfg.inPrompt.length), s.outputFailsAfter = some k →
      ∃ t, exec (.trap 0x23) s = .next t ∧ EndsRun (.fatal .ioFailure) [.r7] s t ∧ t.reg .r7 = s.pc ∧
        t.inputChars = s.inputChars ∧
        t.trace = s.trace ++ (s.cfg.inPrompt.take k).map (fun ch => .output ch .ok) ++
          [.output s.cfg.inPrompt[k] .ioFailure])

/-- HALT (R198): the run ends cleanly; only x[7] is written. -/
def Obligations.HaltEndsTheRun : Prop :=
  ∀ s : State, ∃ t, exec (.trap 0x25) s = .next t ∧ EndsRun (.halted .haltTrap) [.r7] s t ∧
    t.reg .r7 = s.pc ∧ KeepsPorts s t

/-- An unknown vector (R199): Fatal(UnknownTrapVector(v)) after x[7] is written; nothing emitted, nothing else
changed. -/
def Obligations.UnknownVectorIsFatal : Prop :=
  ∀ (v : BitVec 8) (s : State), v.toNat < 0x20 ∨ 0x25 < v.toNat →
    ∃ t, exec (.trap v) s = .next t ∧ EndsRun (.fatal (.unknownTrapVector v)) [.r7] s t ∧
      t.reg .r7 = s.pc ∧ KeepsPorts s t

/-- The unassigned opcode (R200; decisions D8, D18): one report with the instruction's address and its whole word, and
the run goes on with nothing else changed. -/
def Obligations.UnassignedOpcodeReports : Prop :=
  ∀ (w : Word) (s : State), w.extractLsb' 12 4 = 0b1101#4 →
    decode w = .unassigned (w.extractLsb' 0 12) ∧
    ∃ t, exec (.unassigned (w.extractLsb' 0 12)) s = .next t ∧ t.trace = s.trace ++ [.report (s.pc - 1) w] ∧
      KeepsRegsBut [] s t ∧ t.pc = s.pc ∧ t.psr = s.psr ∧ KeepsMem s t ∧ KeepsRun s t ∧
      t.inputChars = s.inputChars ∧ t.inputAfter = s.inputAfter ∧ t.outputFailsAfter = s.outputFailsAfter

/-- A request of an instruction that the host never answers holds the core (R245, U6; that the step then answers a
fault is log 5): in GETC, in IN after its prompt, in every load, in either read of LDI, in STI's pointer read, and in
the scans of PUTS and PUTSP, which hold exactly when the spec's loop comes to such a read (log 6). For the fetch's own
request see StepFetchesThroughTheIntercept. -/
def Obligations.UnansweredInputHoldsTheCore : Prop :=
  ∀ s : State,
    (nextAnswer s = none →
      exec (.trap 0x20) s = .fault .inputNeverAnswered ∧
      (AcceptsOutput s.cfg.inPrompt.length s → exec (.trap 0x23) s = .fault .inputNeverAnswered) ∧
      (∀ (dr : Reg) (offset9 : BitVec 9), ReadsHost (pcRel9 offset9 s) s →
        exec (.ld dr offset9) s = .fault .inputNeverAnswered ∧
        exec (.ldi dr offset9) s = .fault .inputNeverAnswered ∧
        exec (.sti dr offset9) s = .fault .inputNeverAnswered) ∧
      (∀ (dr baseR : Reg) (offset6 : BitVec 6), ReadsHost (baseOff6 baseR offset6 s) s →
        exec (.ldr dr baseR offset6) s = .fault .inputNeverAnswered)) ∧
    (∀ (dr : Reg) (offset9 : BitVec 9) (p : Word) (s1 : State), ReadsTo (pcRel9 offset9 s) s p s1 →
      ReadsHost p s1 → nextAnswer s1 = none → exec (.ldi dr offset9) s = .fault .inputNeverAnswered) ∧
    (exec (.trap 0x22) s = .fault .inputNeverAnswered ↔
      ScanHolds (fun w => [w.extractLsb' 0 8]) (s.reg .r0) (s.setReg .r7 s.pc)) ∧
    (exec (.trap 0x24) s = .fault .inputNeverAnswered ↔
      ScanHolds packedChars (s.reg .r0) (s.setReg .r7 s.pc))

/-! ### The writers of the state -/

/-- The register writers, in full (R32). -/
def Obligations.RegisterWriters : Prop :=
  ∀ (i : Instr) (s t : State), exec i s = .next t → KeepsRegsBut (regWriters i) s t

/-- After the fetch increment only BR, JMP, RET, JSR and JSRR write pc (R34). -/
def Obligations.PcWriters : Prop :=
  ∀ (i : Instr) (s t : State), writesPc i = false → exec i s = .next t → t.pc = s.pc

/-- Only ST, STI and STR write memory (R51), one word each: ST and STR at their computed addresses, STI at some word
its pointer read can answer; no instruction writes the parameters or unsays a port event (log 22). -/
def Obligations.MemoryWriters : Prop :=
  ∀ (i : Instr) (s t : State), s.mem.wf = true → exec i s = .next t →
    (writesMem i = false → t.mem = s.mem) ∧
    (∀ sr o, i = .st sr o → KeepsMemBut (pcRel9 o s) s t) ∧
    (∀ sr b o, i = .str sr b o → KeepsMemBut (baseOff6 b o s) s t) ∧
    (∀ sr o p s1, i = .sti sr o → ReadsTo (pcRel9 o s) s p s1 → KeepsMemBut p s t) ∧
    t.cfg = s.cfg ∧ s.trace <+: t.trace

/-- Only a read of the data register, RTI and TRAP end a run (R221, R224): every other instruction, and a load or STI
that does not read the data register, leaves the status as it is. -/
def Obligations.OnlyTheseEndARun : Prop :=
  ∀ (i : Instr) (s t : State), exec i s = .next t → t.status ≠ s.status →
    i = .rti ∨ (∃ v, i = .trap v) ∨
    (∃ r o, (i = .ld r o ∨ i = .sti r o) ∧ ReadsHost (pcRel9 o s) s) ∨
    (∃ r o, i = .ldi r o ∧ (ReadsHost (pcRel9 o s) s ∨ ReadsHost (quietWord (pcRel9 o s) s) s)) ∨
    (∃ r b o, i = .ldr r b o ∧ ReadsHost (baseOff6 b o s) s)

/-- Output is reached only through TRAP (R242), and reports only through the unassigned opcode (R221). -/
def Obligations.OutputOnlyThroughTrap : Prop :=
  ∀ (i : Instr) (s t : State), exec i s = .next t →
    ((∀ v, i ≠ .trap v) → t.output = s.output) ∧ ((∀ x, i ≠ .unassigned x) → t.reports = s.reports)

/-! ### The machine -/

/-- A step from plain storage runs the decoded instruction in the state with pc moved past its one word (R80, R81). -/
def Obligations.StepRunsTheDecodedInstruction : Prop :=
  ∀ s : State, s.status = .running → s.pc ≠ s.cfg.devStatusAddr → s.pc ≠ s.cfg.devDataAddr →
    step s = exec (decode (s.mem.read s.pc)) (s.setPc (s.pc + 1))

/-- A zero word in plain storage is a no-op (R93; BR = 0 by R90, n, z, p where R83 has them, layout D1): the step
moves pc to the next word and changes nothing else. -/
def Obligations.ZeroWordIsANoOp : Prop :=
  ∀ s : State, s.status = .running → s.pc ≠ s.cfg.devStatusAddr → s.pc ≠ s.cfg.devDataAddr → s.mem.read s.pc = 0 →
    step s = .next (s.setPc (s.pc + 1))

/-- A step at a device address (R67, R80; decision D23): the status register's value is run; the data register's
answer is run, or ends the run with pc at the fetch address, or never comes (R245, U6; that the step then answers a
fault is the model's deduction, log 5). -/
def Obligations.StepFetchesThroughTheIntercept : Prop :=
  ∀ s : State, s.status = .running →
    (s.pc = s.cfg.devStatusAddr → step s = exec (decode s.cfg.statusReady) (s.setPc (s.pc + 1))) ∧
    (ReadsHost s.pc s →
      (∀ c, nextAnswer s = some (.char c) →
        ∃ s1, TookInput (.char c) s s1 ∧ s1.pc = s.pc + 1 ∧ KeepsRegsBut [] s s1 ∧ s1.psr = s.psr ∧
          s1.mem = s.mem ∧ KeepsRun s s1 ∧ step s = exec (decode c) s1) ∧
      EndsAtInput s (step s) ∧
      (nextAnswer s = none → step s = .fault .inputNeverAnswered))

/-- A terminal state is final (R220): every further step, any number of them, leaves it as it is (that such a step
answers the same state, rather than none, is the model's choice, log 7). -/
def Obligations.TerminalStatesAreFinal : Prop :=
  ∀ (s : State) (k : Nat), s.Terminal → Sys2Proof.core.run k s = .next s

/-- What reset leaves (R45, R250, R253; registers by decision D6, psr by D5, backing cells by D4). -/
def Obligations.ResetState : Prop :=
  boot none = .next State.reset ∧ (∀ r, State.reset.reg r = 0x0000) ∧ State.reset.pc = 0x3000 ∧
    State.reset.psr = 0x0002 ∧ (∀ a, State.reset.mem.read a = 0x0000) ∧ State.reset.status = .running ∧
    State.reset.trace = []

/-- The invariant holds at reset: memory canonical, psr legal (R39, D5), parameters legal (R9, D2, D3). -/
def Obligations.ResetMeetsTheInvariant : Prop := State.reset.Inv

/-- The invariant is kept by every step (R39; log 1): memory stays canonical, exactly one of N, Z, P stays set, and
the parameters stay legal. -/
def Obligations.StepKeepsTheInvariant : Prop :=
  ∀ s t : State, s.Inv → step s = .next t → t.Inv

/-- A step adds to the record of the ports and takes nothing back, and changes no parameter (R222, R247; log 22). -/
def Obligations.StepOnlyAddsToTheTrace : Prop :=
  ∀ s t : State, step s = .next t → s.trace <+: t.trace ∧ t.cfg = s.cfg

/-- No step is refused (R94), and every step completes where the host's answers come to an end (R262; log 3, 6): with
legal parameters and an input stream that ends, a step has a next state. In a terminal state that next state is the
state itself, the model's choice (log 7). -/
def Obligations.StepCompletesWhenInputEnds : Prop :=
  (∀ (s : State) (f : Refusal), step s ≠ .refused f) ∧
  ∀ s : State, s.cfg.wf = true → s.inputAfter = .endOfInput ∨ s.inputAfter = .ioFailure →
    ∃ t, step s = .next t

/-- A scan is found to hang only where the spec's loop has nothing to stop at (R192, U9): a PUTS or PUTSP, no zero
word in plain storage, a nonzero status value, and output that never fails. -/
def Obligations.HangNeedsMemoryWithoutZero : Prop :=
  ∀ (i : Instr) (s : State), exec i s = .fault .scanNeverEnds →
    (i = .trap 0x22 ∨ i = .trap 0x24) ∧ s.cfg.statusReady ≠ 0 ∧ s.outputFailsAfter = none ∧
      ∀ a, a ≠ s.cfg.devStatusAddr → a ≠ s.cfg.devDataAddr → s.mem.read a ≠ 0

/-- The run from empty memory (R254, which the spec derives; the reset state's own parameters are the spec's defaults,
D2, D3; zero words as BR and 0x8000 as RTI by layout D1, log 10): 0xCE00 no-ops, then the status register's 0x8000 is
run as RTI. -/
def Obligations.EmptyMemoryRunsToRti : Prop :=
  Sys2Proof.core.run 0xCE00 State.reset = .next (State.reset.setPc 0xFE00) ∧
  Sys2Proof.core.run 0xCE01 State.reset =
    .next ((State.reset.setPc 0xFE01).setStatus (.fatal .rtiUnsupported))

/-! ### The load port -/

/-- Loading an image (R252; limits of decision D19): its words stand from the origin up, device addresses' cells
included, every other word is as before, pc is the origin, and nothing else changes. -/
def Obligations.LoadPlacesTheImage : Prop :=
  ∀ (o : Word) (ws : List Word) (s : State), s.mem.wf = true → s.status = .running →
    o.toNat + ws.length ≤ 0x10000 →
    ∃ t, loadImage (imageBytes o ws) s = .next t ∧ t.pc = o ∧ t.mem.wf = true ∧
      (∀ i (h : i < ws.length), t.mem.read (o + BitVec.ofNat 16 i) = ws[i]) ∧
      (∀ a : Word, (∀ i, i < ws.length → a ≠ o + BitVec.ofNat 16 i) → t.mem.read a = s.mem.read a) ∧
      KeepsRegsBut [] s t ∧ t.psr = s.psr ∧ KeepsRun s t ∧ KeepsPorts s t

/-- Images without meaning are refused (R252; decision D19): fewer than two bytes, an odd number of bytes, or words
past 0xFFFF. -/
def Obligations.BadImagesAreRefused : Prop :=
  (∀ (b : List Byte) (s : State), s.status = .running → b.length < 2 → loadImage b s = .refused .imageTooShort) ∧
  (∀ (b : List Byte) (s : State), s.status = .running → 2 ≤ b.length → b.length % 2 = 1 →
    loadImage b s = .refused .imageOddLength) ∧
  (∀ (o : Word) (ws : List Word) (s : State), s.status = .running → 0x10000 < o.toNat + ws.length →
    loadImage (imageBytes o ws) s = .refused .imageOverflow)
end

