-- ==== Sys2Proof/Laws/State.lean ====
section
/-!
SUPPORT. One lemma per field per update of the state, each true by unfolding once, so that no later proof unfolds a
record update; and reading a register after a register is written (R30).
-/

namespace Sys2Proof.Machine

/-! ### The register file -/

/-- A register reads back the last value written to it (R30). -/
@[simp] theorem RegFile.get_set_same (f : RegFile) (r : Reg) (v : Word) : (f.set r v).get r = v := by
  cases r <;> rfl

/-- Writing a register leaves the others as they are (R30). -/
@[simp] theorem RegFile.get_set_ne (f : RegFile) {r q : Reg} (v : Word) (h : q ≠ r) :
    (f.set r v).get q = f.get q := by
  cases r <;> cases q <;> first | rfl | exact absurd rfl h

/-- Two register files with the same registers are the same. -/
theorem RegFile.ext_get {f g : RegFile} (h : ∀ r, f.get r = g.get r) : f = g := by
  cases f; cases g
  have h0 := h .r0; have h1 := h .r1; have h2 := h .r2; have h3 := h .r3
  have h4 := h .r4; have h5 := h .r5; have h6 := h .r6; have h7 := h .r7
  simp only [RegFile.get] at h0 h1 h2 h3 h4 h5 h6 h7
  subst h0 h1 h2 h3 h4 h5 h6 h7
  rfl

/-- The register reads as written (R30). -/
@[simp] theorem reg_setReg_same (s : State) (r : Reg) (v : Word) : (s.setReg r v).reg r = v :=
  RegFile.get_set_same _ _ _

/-- The other registers read as before (R30). -/
@[simp] theorem reg_setReg_ne (s : State) {r q : Reg} (v : Word) (h : q ≠ r) :
    (s.setReg r v).reg q = s.reg q :=
  RegFile.get_set_ne _ _ h

/-- A result's destination reads as written. -/
@[simp] theorem reg_writeResult_same (dr : Reg) (v : Word) (s : State) : (writeResult dr v s).reg dr = v :=
  RegFile.get_set_same _ _ _

/-- A result leaves the other registers as they are. -/
@[simp] theorem reg_writeResult_ne {dr q : Reg} (v : Word) (s : State) (h : q ≠ dr) :
    (writeResult dr v s).reg q = s.reg q :=
  RegFile.get_set_ne _ _ h

/-- Trap entry leaves the return address in x[7] (R227). -/
@[simp] theorem reg_enterTrap_same (s : State) : (enterTrap s).reg .r7 = s.pc :=
  reg_setReg_same s .r7 s.pc

/-- Trap entry writes no register but x[7] (R227). -/
@[simp] theorem reg_enterTrap_ne {q : Reg} (s : State) (h : q ≠ .r7) : (enterTrap s).reg q = s.reg q :=
  reg_setReg_ne s s.pc h

/-- A call leaves the return address in x[7] (R142). -/
@[simp] theorem reg_link_same (s : State) : (link s).reg .r7 = s.pc :=
  reg_setReg_same s .r7 s.pc

/-- A call writes no register but x[7] (R32). -/
@[simp] theorem reg_link_ne {q : Reg} (s : State) (h : q ≠ .r7) : (link s).reg q = s.reg q :=
  reg_setReg_ne s s.pc h

/-! ### setReg -/

@[simp] theorem setReg_regs (s : State) (r : Reg) (v : Word) : (s.setReg r v).regs = s.regs.set r v := rfl
@[simp] theorem setReg_pc (s : State) (r : Reg) (v : Word) : (s.setReg r v).pc = s.pc := rfl
@[simp] theorem setReg_psr (s : State) (r : Reg) (v : Word) : (s.setReg r v).psr = s.psr := rfl
@[simp] theorem setReg_mem (s : State) (r : Reg) (v : Word) : (s.setReg r v).mem = s.mem := rfl
@[simp] theorem setReg_status (s : State) (r : Reg) (v : Word) : (s.setReg r v).status = s.status := rfl
@[simp] theorem setReg_cfg (s : State) (r : Reg) (v : Word) : (s.setReg r v).cfg = s.cfg := rfl
@[simp] theorem setReg_inputChars (s : State) (r : Reg) (v : Word) : (s.setReg r v).inputChars = s.inputChars := rfl
@[simp] theorem setReg_inputAfter (s : State) (r : Reg) (v : Word) : (s.setReg r v).inputAfter = s.inputAfter := rfl
@[simp] theorem setReg_outputFailsAfter (s : State) (r : Reg) (v : Word) : (s.setReg r v).outputFailsAfter = s.outputFailsAfter := rfl
@[simp] theorem setReg_trace (s : State) (r : Reg) (v : Word) : (s.setReg r v).trace = s.trace := rfl

/-! ### setPc -/

@[simp] theorem setPc_regs (s : State) (v : Word) : (s.setPc v).regs = s.regs := rfl
@[simp] theorem setPc_pc (s : State) (v : Word) : (s.setPc v).pc = v := rfl
@[simp] theorem setPc_psr (s : State) (v : Word) : (s.setPc v).psr = s.psr := rfl
@[simp] theorem setPc_mem (s : State) (v : Word) : (s.setPc v).mem = s.mem := rfl
@[simp] theorem setPc_status (s : State) (v : Word) : (s.setPc v).status = s.status := rfl
@[simp] theorem setPc_cfg (s : State) (v : Word) : (s.setPc v).cfg = s.cfg := rfl
@[simp] theorem setPc_inputChars (s : State) (v : Word) : (s.setPc v).inputChars = s.inputChars := rfl
@[simp] theorem setPc_inputAfter (s : State) (v : Word) : (s.setPc v).inputAfter = s.inputAfter := rfl
@[simp] theorem setPc_outputFailsAfter (s : State) (v : Word) : (s.setPc v).outputFailsAfter = s.outputFailsAfter := rfl
@[simp] theorem setPc_trace (s : State) (v : Word) : (s.setPc v).trace = s.trace := rfl
@[simp] theorem setPc_reg (s : State) (v : Word) (q : Reg) : (s.setPc v).reg q = s.reg q := rfl

/-! ### setPsr -/

@[simp] theorem setPsr_regs (s : State) (v : Word) : (s.setPsr v).regs = s.regs := rfl
@[simp] theorem setPsr_pc (s : State) (v : Word) : (s.setPsr v).pc = s.pc := rfl
@[simp] theorem setPsr_psr (s : State) (v : Word) : (s.setPsr v).psr = v := rfl
@[simp] theorem setPsr_mem (s : State) (v : Word) : (s.setPsr v).mem = s.mem := rfl
@[simp] theorem setPsr_status (s : State) (v : Word) : (s.setPsr v).status = s.status := rfl
@[simp] theorem setPsr_cfg (s : State) (v : Word) : (s.setPsr v).cfg = s.cfg := rfl
@[simp] theorem setPsr_inputChars (s : State) (v : Word) : (s.setPsr v).inputChars = s.inputChars := rfl
@[simp] theorem setPsr_inputAfter (s : State) (v : Word) : (s.setPsr v).inputAfter = s.inputAfter := rfl
@[simp] theorem setPsr_outputFailsAfter (s : State) (v : Word) : (s.setPsr v).outputFailsAfter = s.outputFailsAfter := rfl
@[simp] theorem setPsr_trace (s : State) (v : Word) : (s.setPsr v).trace = s.trace := rfl
@[simp] theorem setPsr_reg (s : State) (v : Word) (q : Reg) : (s.setPsr v).reg q = s.reg q := rfl

/-! ### setStatus -/

@[simp] theorem setStatus_regs (s : State) (v : RunStatus) : (s.setStatus v).regs = s.regs := rfl
@[simp] theorem setStatus_pc (s : State) (v : RunStatus) : (s.setStatus v).pc = s.pc := rfl
@[simp] theorem setStatus_psr (s : State) (v : RunStatus) : (s.setStatus v).psr = s.psr := rfl
@[simp] theorem setStatus_mem (s : State) (v : RunStatus) : (s.setStatus v).mem = s.mem := rfl
@[simp] theorem setStatus_status (s : State) (v : RunStatus) : (s.setStatus v).status = v := rfl
@[simp] theorem setStatus_cfg (s : State) (v : RunStatus) : (s.setStatus v).cfg = s.cfg := rfl
@[simp] theorem setStatus_inputChars (s : State) (v : RunStatus) : (s.setStatus v).inputChars = s.inputChars := rfl
@[simp] theorem setStatus_inputAfter (s : State) (v : RunStatus) : (s.setStatus v).inputAfter = s.inputAfter := rfl
@[simp] theorem setStatus_outputFailsAfter (s : State) (v : RunStatus) : (s.setStatus v).outputFailsAfter = s.outputFailsAfter := rfl
@[simp] theorem setStatus_trace (s : State) (v : RunStatus) : (s.setStatus v).trace = s.trace := rfl
@[simp] theorem setStatus_reg (s : State) (v : RunStatus) (q : Reg) : (s.setStatus v).reg q = s.reg q := rfl

/-! ### setMem -/

@[simp] theorem setMem_regs (s : State) (m : Memory) : (s.setMem m).regs = s.regs := rfl
@[simp] theorem setMem_pc (s : State) (m : Memory) : (s.setMem m).pc = s.pc := rfl
@[simp] theorem setMem_psr (s : State) (m : Memory) : (s.setMem m).psr = s.psr := rfl
@[simp] theorem setMem_mem (s : State) (m : Memory) : (s.setMem m).mem = m := rfl
@[simp] theorem setMem_status (s : State) (m : Memory) : (s.setMem m).status = s.status := rfl
@[simp] theorem setMem_cfg (s : State) (m : Memory) : (s.setMem m).cfg = s.cfg := rfl
@[simp] theorem setMem_inputChars (s : State) (m : Memory) : (s.setMem m).inputChars = s.inputChars := rfl
@[simp] theorem setMem_inputAfter (s : State) (m : Memory) : (s.setMem m).inputAfter = s.inputAfter := rfl
@[simp] theorem setMem_outputFailsAfter (s : State) (m : Memory) : (s.setMem m).outputFailsAfter = s.outputFailsAfter := rfl
@[simp] theorem setMem_trace (s : State) (m : Memory) : (s.setMem m).trace = s.trace := rfl
@[simp] theorem setMem_reg (s : State) (m : Memory) (q : Reg) : (s.setMem m).reg q = s.reg q := rfl

/-! ### setInputChars -/

@[simp] theorem setInputChars_regs (s : State) (cs : List Word) : (s.setInputChars cs).regs = s.regs := rfl
@[simp] theorem setInputChars_pc (s : State) (cs : List Word) : (s.setInputChars cs).pc = s.pc := rfl
@[simp] theorem setInputChars_psr (s : State) (cs : List Word) : (s.setInputChars cs).psr = s.psr := rfl
@[simp] theorem setInputChars_mem (s : State) (cs : List Word) : (s.setInputChars cs).mem = s.mem := rfl
@[simp] theorem setInputChars_status (s : State) (cs : List Word) : (s.setInputChars cs).status = s.status := rfl
@[simp] theorem setInputChars_cfg (s : State) (cs : List Word) : (s.setInputChars cs).cfg = s.cfg := rfl
@[simp] theorem setInputChars_inputChars (s : State) (cs : List Word) : (s.setInputChars cs).inputChars = cs := rfl
@[simp] theorem setInputChars_inputAfter (s : State) (cs : List Word) : (s.setInputChars cs).inputAfter = s.inputAfter := rfl
@[simp] theorem setInputChars_outputFailsAfter (s : State) (cs : List Word) : (s.setInputChars cs).outputFailsAfter = s.outputFailsAfter := rfl
@[simp] theorem setInputChars_trace (s : State) (cs : List Word) : (s.setInputChars cs).trace = s.trace := rfl
@[simp] theorem setInputChars_reg (s : State) (cs : List Word) (q : Reg) : (s.setInputChars cs).reg q = s.reg q := rfl

/-! ### setOutputFailsAfter -/

@[simp] theorem setOutputFailsAfter_regs (s : State) (n : Option Nat) : (s.setOutputFailsAfter n).regs = s.regs := rfl
@[simp] theorem setOutputFailsAfter_pc (s : State) (n : Option Nat) : (s.setOutputFailsAfter n).pc = s.pc := rfl
@[simp] theorem setOutputFailsAfter_psr (s : State) (n : Option Nat) : (s.setOutputFailsAfter n).psr = s.psr := rfl
@[simp] theorem setOutputFailsAfter_mem (s : State) (n : Option Nat) : (s.setOutputFailsAfter n).mem = s.mem := rfl
@[simp] theorem setOutputFailsAfter_status (s : State) (n : Option Nat) : (s.setOutputFailsAfter n).status = s.status := rfl
@[simp] theorem setOutputFailsAfter_cfg (s : State) (n : Option Nat) : (s.setOutputFailsAfter n).cfg = s.cfg := rfl
@[simp] theorem setOutputFailsAfter_inputChars (s : State) (n : Option Nat) : (s.setOutputFailsAfter n).inputChars = s.inputChars := rfl
@[simp] theorem setOutputFailsAfter_inputAfter (s : State) (n : Option Nat) : (s.setOutputFailsAfter n).inputAfter = s.inputAfter := rfl
@[simp] theorem setOutputFailsAfter_outputFailsAfter (s : State) (n : Option Nat) : (s.setOutputFailsAfter n).outputFailsAfter = n := rfl
@[simp] theorem setOutputFailsAfter_trace (s : State) (n : Option Nat) : (s.setOutputFailsAfter n).trace = s.trace := rfl
@[simp] theorem setOutputFailsAfter_reg (s : State) (n : Option Nat) (q : Reg) : (s.setOutputFailsAfter n).reg q = s.reg q := rfl

/-! ### record -/

@[simp] theorem record_regs (s : State) (e : PortEvent) : (s.record e).regs = s.regs := rfl
@[simp] theorem record_pc (s : State) (e : PortEvent) : (s.record e).pc = s.pc := rfl
@[simp] theorem record_psr (s : State) (e : PortEvent) : (s.record e).psr = s.psr := rfl
@[simp] theorem record_mem (s : State) (e : PortEvent) : (s.record e).mem = s.mem := rfl
@[simp] theorem record_status (s : State) (e : PortEvent) : (s.record e).status = s.status := rfl
@[simp] theorem record_cfg (s : State) (e : PortEvent) : (s.record e).cfg = s.cfg := rfl
@[simp] theorem record_inputChars (s : State) (e : PortEvent) : (s.record e).inputChars = s.inputChars := rfl
@[simp] theorem record_inputAfter (s : State) (e : PortEvent) : (s.record e).inputAfter = s.inputAfter := rfl
@[simp] theorem record_outputFailsAfter (s : State) (e : PortEvent) : (s.record e).outputFailsAfter = s.outputFailsAfter := rfl
@[simp] theorem record_trace (s : State) (e : PortEvent) : (s.record e).trace = s.trace ++ [e] := rfl
@[simp] theorem record_reg (s : State) (e : PortEvent) (q : Reg) : (s.record e).reg q = s.reg q := rfl

/-! ### raiseFatal -/

@[simp] theorem raiseFatal_regs (k : FatalKind) (s : State) : (raiseFatal k s).regs = s.regs := rfl
@[simp] theorem raiseFatal_pc (k : FatalKind) (s : State) : (raiseFatal k s).pc = s.pc := rfl
@[simp] theorem raiseFatal_psr (k : FatalKind) (s : State) : (raiseFatal k s).psr = s.psr := rfl
@[simp] theorem raiseFatal_mem (k : FatalKind) (s : State) : (raiseFatal k s).mem = s.mem := rfl
@[simp] theorem raiseFatal_status (k : FatalKind) (s : State) : (raiseFatal k s).status = .fatal k := rfl
@[simp] theorem raiseFatal_cfg (k : FatalKind) (s : State) : (raiseFatal k s).cfg = s.cfg := rfl
@[simp] theorem raiseFatal_inputChars (k : FatalKind) (s : State) : (raiseFatal k s).inputChars = s.inputChars := rfl
@[simp] theorem raiseFatal_inputAfter (k : FatalKind) (s : State) : (raiseFatal k s).inputAfter = s.inputAfter := rfl
@[simp] theorem raiseFatal_outputFailsAfter (k : FatalKind) (s : State) : (raiseFatal k s).outputFailsAfter = s.outputFailsAfter := rfl
@[simp] theorem raiseFatal_trace (k : FatalKind) (s : State) : (raiseFatal k s).trace = s.trace := rfl
@[simp] theorem raiseFatal_reg (k : FatalKind) (s : State) (q : Reg) : (raiseFatal k s).reg q = s.reg q := rfl

/-! ### terminate -/

@[simp] theorem terminate_regs (k : HaltKind) (s : State) : (terminate k s).regs = s.regs := rfl
@[simp] theorem terminate_pc (k : HaltKind) (s : State) : (terminate k s).pc = s.pc := rfl
@[simp] theorem terminate_psr (k : HaltKind) (s : State) : (terminate k s).psr = s.psr := rfl
@[simp] theorem terminate_mem (k : HaltKind) (s : State) : (terminate k s).mem = s.mem := rfl
@[simp] theorem terminate_status (k : HaltKind) (s : State) : (terminate k s).status = .halted k := rfl
@[simp] theorem terminate_cfg (k : HaltKind) (s : State) : (terminate k s).cfg = s.cfg := rfl
@[simp] theorem terminate_inputChars (k : HaltKind) (s : State) : (terminate k s).inputChars = s.inputChars := rfl
@[simp] theorem terminate_inputAfter (k : HaltKind) (s : State) : (terminate k s).inputAfter = s.inputAfter := rfl
@[simp] theorem terminate_outputFailsAfter (k : HaltKind) (s : State) : (terminate k s).outputFailsAfter = s.outputFailsAfter := rfl
@[simp] theorem terminate_trace (k : HaltKind) (s : State) : (terminate k s).trace = s.trace := rfl
@[simp] theorem terminate_reg (k : HaltKind) (s : State) (q : Reg) : (terminate k s).reg q = s.reg q := rfl

/-! ### consumeInput -/

@[simp] theorem consumeInput_regs (a : InputAnswer) (s : State) : (consumeInput a s).regs = s.regs := rfl
@[simp] theorem consumeInput_pc (a : InputAnswer) (s : State) : (consumeInput a s).pc = s.pc := rfl
@[simp] theorem consumeInput_psr (a : InputAnswer) (s : State) : (consumeInput a s).psr = s.psr := rfl
@[simp] theorem consumeInput_mem (a : InputAnswer) (s : State) : (consumeInput a s).mem = s.mem := rfl
@[simp] theorem consumeInput_status (a : InputAnswer) (s : State) : (consumeInput a s).status = s.status := rfl
@[simp] theorem consumeInput_cfg (a : InputAnswer) (s : State) : (consumeInput a s).cfg = s.cfg := rfl
@[simp] theorem consumeInput_inputChars (a : InputAnswer) (s : State) : (consumeInput a s).inputChars = s.inputChars.tail := rfl
@[simp] theorem consumeInput_inputAfter (a : InputAnswer) (s : State) : (consumeInput a s).inputAfter = s.inputAfter := rfl
@[simp] theorem consumeInput_outputFailsAfter (a : InputAnswer) (s : State) : (consumeInput a s).outputFailsAfter = s.outputFailsAfter := rfl
@[simp] theorem consumeInput_trace (a : InputAnswer) (s : State) : (consumeInput a s).trace = s.trace ++ [.input a] := rfl
@[simp] theorem consumeInput_reg (a : InputAnswer) (s : State) (q : Reg) : (consumeInput a s).reg q = s.reg q := rfl

/-! ### memWrite -/

@[simp] theorem memWrite_regs (a v : Word) (s : State) : (memWrite a v s).regs = s.regs := rfl
@[simp] theorem memWrite_pc (a v : Word) (s : State) : (memWrite a v s).pc = s.pc := rfl
@[simp] theorem memWrite_psr (a v : Word) (s : State) : (memWrite a v s).psr = s.psr := rfl
@[simp] theorem memWrite_mem (a v : Word) (s : State) : (memWrite a v s).mem = s.mem.write a v := rfl
@[simp] theorem memWrite_status (a v : Word) (s : State) : (memWrite a v s).status = s.status := rfl
@[simp] theorem memWrite_cfg (a v : Word) (s : State) : (memWrite a v s).cfg = s.cfg := rfl
@[simp] theorem memWrite_inputChars (a v : Word) (s : State) : (memWrite a v s).inputChars = s.inputChars := rfl
@[simp] theorem memWrite_inputAfter (a v : Word) (s : State) : (memWrite a v s).inputAfter = s.inputAfter := rfl
@[simp] theorem memWrite_outputFailsAfter (a v : Word) (s : State) : (memWrite a v s).outputFailsAfter = s.outputFailsAfter := rfl
@[simp] theorem memWrite_trace (a v : Word) (s : State) : (memWrite a v s).trace = s.trace := rfl
@[simp] theorem memWrite_reg (a v : Word) (s : State) (q : Reg) : (memWrite a v s).reg q = s.reg q := rfl

/-! ### enterTrap -/

@[simp] theorem enterTrap_regs (s : State) : (enterTrap s).regs = s.regs.set .r7 s.pc := rfl
@[simp] theorem enterTrap_pc (s : State) : (enterTrap s).pc = s.pc := rfl
@[simp] theorem enterTrap_psr (s : State) : (enterTrap s).psr = s.psr := rfl
@[simp] theorem enterTrap_mem (s : State) : (enterTrap s).mem = s.mem := rfl
@[simp] theorem enterTrap_status (s : State) : (enterTrap s).status = s.status := rfl
@[simp] theorem enterTrap_cfg (s : State) : (enterTrap s).cfg = s.cfg := rfl
@[simp] theorem enterTrap_inputChars (s : State) : (enterTrap s).inputChars = s.inputChars := rfl
@[simp] theorem enterTrap_inputAfter (s : State) : (enterTrap s).inputAfter = s.inputAfter := rfl
@[simp] theorem enterTrap_outputFailsAfter (s : State) : (enterTrap s).outputFailsAfter = s.outputFailsAfter := rfl
@[simp] theorem enterTrap_trace (s : State) : (enterTrap s).trace = s.trace := rfl

/-! ### link -/

@[simp] theorem link_regs (s : State) : (link s).regs = s.regs.set .r7 s.pc := rfl
@[simp] theorem link_pc (s : State) : (link s).pc = s.pc := rfl
@[simp] theorem link_psr (s : State) : (link s).psr = s.psr := rfl
@[simp] theorem link_mem (s : State) : (link s).mem = s.mem := rfl
@[simp] theorem link_status (s : State) : (link s).status = s.status := rfl
@[simp] theorem link_cfg (s : State) : (link s).cfg = s.cfg := rfl
@[simp] theorem link_inputChars (s : State) : (link s).inputChars = s.inputChars := rfl
@[simp] theorem link_inputAfter (s : State) : (link s).inputAfter = s.inputAfter := rfl
@[simp] theorem link_outputFailsAfter (s : State) : (link s).outputFailsAfter = s.outputFailsAfter := rfl
@[simp] theorem link_trace (s : State) : (link s).trace = s.trace := rfl

/-! ### jumpThrough -/

@[simp] theorem jumpThrough_regs (b : Reg) (s : State) : (jumpThrough b s).regs = s.regs := rfl
@[simp] theorem jumpThrough_pc (b : Reg) (s : State) : (jumpThrough b s).pc = s.reg b := rfl
@[simp] theorem jumpThrough_psr (b : Reg) (s : State) : (jumpThrough b s).psr = s.psr := rfl
@[simp] theorem jumpThrough_mem (b : Reg) (s : State) : (jumpThrough b s).mem = s.mem := rfl
@[simp] theorem jumpThrough_status (b : Reg) (s : State) : (jumpThrough b s).status = s.status := rfl
@[simp] theorem jumpThrough_cfg (b : Reg) (s : State) : (jumpThrough b s).cfg = s.cfg := rfl
@[simp] theorem jumpThrough_inputChars (b : Reg) (s : State) : (jumpThrough b s).inputChars = s.inputChars := rfl
@[simp] theorem jumpThrough_inputAfter (b : Reg) (s : State) : (jumpThrough b s).inputAfter = s.inputAfter := rfl
@[simp] theorem jumpThrough_outputFailsAfter (b : Reg) (s : State) : (jumpThrough b s).outputFailsAfter = s.outputFailsAfter := rfl
@[simp] theorem jumpThrough_trace (b : Reg) (s : State) : (jumpThrough b s).trace = s.trace := rfl
@[simp] theorem jumpThrough_reg (b : Reg) (s : State) (q : Reg) : (jumpThrough b s).reg q = s.reg q := rfl

/-! ### reportUnknownOpcode -/

@[simp] theorem reportUnknownOpcode_regs (a ir : Word) (s : State) : (reportUnknownOpcode a ir s).regs = s.regs := rfl
@[simp] theorem reportUnknownOpcode_pc (a ir : Word) (s : State) : (reportUnknownOpcode a ir s).pc = s.pc := rfl
@[simp] theorem reportUnknownOpcode_psr (a ir : Word) (s : State) : (reportUnknownOpcode a ir s).psr = s.psr := rfl
@[simp] theorem reportUnknownOpcode_mem (a ir : Word) (s : State) : (reportUnknownOpcode a ir s).mem = s.mem := rfl
@[simp] theorem reportUnknownOpcode_status (a ir : Word) (s : State) : (reportUnknownOpcode a ir s).status = s.status := rfl
@[simp] theorem reportUnknownOpcode_cfg (a ir : Word) (s : State) : (reportUnknownOpcode a ir s).cfg = s.cfg := rfl
@[simp] theorem reportUnknownOpcode_inputChars (a ir : Word) (s : State) : (reportUnknownOpcode a ir s).inputChars = s.inputChars := rfl
@[simp] theorem reportUnknownOpcode_inputAfter (a ir : Word) (s : State) : (reportUnknownOpcode a ir s).inputAfter = s.inputAfter := rfl
@[simp] theorem reportUnknownOpcode_outputFailsAfter (a ir : Word) (s : State) : (reportUnknownOpcode a ir s).outputFailsAfter = s.outputFailsAfter := rfl
@[simp] theorem reportUnknownOpcode_trace (a ir : Word) (s : State) : (reportUnknownOpcode a ir s).trace = s.trace ++ [.report a ir] := rfl
@[simp] theorem reportUnknownOpcode_reg (a ir : Word) (s : State) (q : Reg) : (reportUnknownOpcode a ir s).reg q = s.reg q := rfl

/-! ### setcc -/

@[simp] theorem setcc_regs (v : Word) (s : State) : (setcc v s).regs = s.regs := rfl
@[simp] theorem setcc_pc (v : Word) (s : State) : (setcc v s).pc = s.pc := rfl
@[simp] theorem setcc_psr (v : Word) (s : State) : (setcc v s).psr = psrWithCC s.psr v := rfl
@[simp] theorem setcc_mem (v : Word) (s : State) : (setcc v s).mem = s.mem := rfl
@[simp] theorem setcc_status (v : Word) (s : State) : (setcc v s).status = s.status := rfl
@[simp] theorem setcc_cfg (v : Word) (s : State) : (setcc v s).cfg = s.cfg := rfl
@[simp] theorem setcc_inputChars (v : Word) (s : State) : (setcc v s).inputChars = s.inputChars := rfl
@[simp] theorem setcc_inputAfter (v : Word) (s : State) : (setcc v s).inputAfter = s.inputAfter := rfl
@[simp] theorem setcc_outputFailsAfter (v : Word) (s : State) : (setcc v s).outputFailsAfter = s.outputFailsAfter := rfl
@[simp] theorem setcc_trace (v : Word) (s : State) : (setcc v s).trace = s.trace := rfl
@[simp] theorem setcc_reg (v : Word) (s : State) (q : Reg) : (setcc v s).reg q = s.reg q := rfl

/-! ### writeResult -/

@[simp] theorem writeResult_regs (dr : Reg) (v : Word) (s : State) : (writeResult dr v s).regs = s.regs.set dr v := rfl
@[simp] theorem writeResult_pc (dr : Reg) (v : Word) (s : State) : (writeResult dr v s).pc = s.pc := rfl
@[simp] theorem writeResult_psr (dr : Reg) (v : Word) (s : State) : (writeResult dr v s).psr = psrWithCC s.psr v := rfl
@[simp] theorem writeResult_mem (dr : Reg) (v : Word) (s : State) : (writeResult dr v s).mem = s.mem := rfl
@[simp] theorem writeResult_status (dr : Reg) (v : Word) (s : State) : (writeResult dr v s).status = s.status := rfl
@[simp] theorem writeResult_cfg (dr : Reg) (v : Word) (s : State) : (writeResult dr v s).cfg = s.cfg := rfl
@[simp] theorem writeResult_inputChars (dr : Reg) (v : Word) (s : State) : (writeResult dr v s).inputChars = s.inputChars := rfl
@[simp] theorem writeResult_inputAfter (dr : Reg) (v : Word) (s : State) : (writeResult dr v s).inputAfter = s.inputAfter := rfl
@[simp] theorem writeResult_outputFailsAfter (dr : Reg) (v : Word) (s : State) : (writeResult dr v s).outputFailsAfter = s.outputFailsAfter := rfl
@[simp] theorem writeResult_trace (dr : Reg) (v : Word) (s : State) : (writeResult dr v s).trace = s.trace := rfl

end Sys2Proof.Machine
end

