-- ==== Sys2Proof/Laws/Memory.lean ====
section
/-!
SUPPORT. The laws of storage: a read after a write, and the canonical form, which every memory operation keeps (log 1).
-/

namespace Sys2Proof.Machine

theorem Memory.wfFrom_cons {lo a : Nat} {v : Word} {rest : Memory} :
    Memory.wfFrom lo ((a, v) :: rest) = true ↔
      lo ≤ a ∧ a < 0x10000 ∧ v ≠ Memory.unlisted ∧ Memory.wfFrom (a + 1) rest = true := by
  simp [Memory.wfFrom, and_assoc]

/-- The canonical form from a higher address is one from a lower address. -/
theorem Memory.wfFrom_mono {lo hi : Nat} {m : Memory} (hle : lo ≤ hi) (h : Memory.wfFrom hi m = true) :
    Memory.wfFrom lo m = true := by
  cases m with
  | nil => rfl
  | cons p rest =>
    obtain ⟨a, v⟩ := p
    rw [Memory.wfFrom_cons] at h ⊢
    exact ⟨by omega, h.2⟩

/-- An address below every listed one reads as unlisted. -/
theorem Memory.lookup_below {lo a : Nat} {m : Memory} (h : Memory.wfFrom lo m = true) (ha : a < lo) :
    Memory.lookup m a = Memory.unlisted := by
  induction m generalizing lo with
  | nil => rfl
  | cons p rest ih =>
    obtain ⟨b, v⟩ := p
    rw [Memory.wfFrom_cons] at h
    rw [Memory.lookup, if_neg (by omega)]
    exact ih h.2.2.2 (by omega)

theorem Memory.lookup_put {lo a b : Nat} {v : Word} {rest : Memory} (h : Memory.wfFrom lo rest = true) (ha : a < lo) :
    Memory.lookup (Memory.put a v rest) b = if b = a then v else Memory.lookup rest b := by
  unfold Memory.put
  split
  · next hv =>
    split
    · next hb => rw [hb, hv, Memory.lookup_below h ha]
    · rfl
  · rfl

/-- Reading numeric addresses after an insertion. -/
theorem Memory.lookup_insert {lo a b : Nat} {v : Word} {m : Memory} (h : Memory.wfFrom lo m = true) :
    Memory.lookup (Memory.insert m a v) b = if b = a then v else Memory.lookup m b := by
  induction m generalizing lo with
  | nil => exact Memory.lookup_put (lo := a + 1) rfl (by omega)
  | cons p rest ih =>
    obtain ⟨c, w⟩ := p
    have hc := Memory.wfFrom_cons.mp h
    rw [Memory.insert]
    split
    · next hlt =>
      exact Memory.lookup_put (lo := c) (Memory.wfFrom_cons.mpr ⟨le_refl _, hc.2⟩) hlt
    · split
      · next heq =>
        subst heq
        rw [Memory.lookup_put (lo := a + 1) hc.2.2.2 (by omega), Memory.lookup]
        split <;> rfl
      · next hne =>
        rw [Memory.lookup, Memory.lookup, ih hc.2.2.2]
        split
        · next hb => rw [if_neg (by omega)]
        · rfl

theorem Memory.put_wfFrom {lo a : Nat} {v : Word} {rest : Memory} (h : Memory.wfFrom (a + 1) rest = true)
    (hlo : lo ≤ a) (ha : a < 0x10000) : Memory.wfFrom lo (Memory.put a v rest) = true := by
  unfold Memory.put
  split
  · exact Memory.wfFrom_mono (by omega) h
  · next hv => exact Memory.wfFrom_cons.mpr ⟨hlo, ha, hv, h⟩

theorem Memory.insert_wfFrom {lo a : Nat} {v : Word} {m : Memory} (h : Memory.wfFrom lo m = true)
    (hlo : lo ≤ a) (ha : a < 0x10000) : Memory.wfFrom lo (Memory.insert m a v) = true := by
  induction m generalizing lo with
  | nil => exact Memory.put_wfFrom rfl hlo ha
  | cons p rest ih =>
    obtain ⟨c, w⟩ := p
    have hc := Memory.wfFrom_cons.mp h
    rw [Memory.insert]
    split
    · next hlt =>
      exact Memory.put_wfFrom (Memory.wfFrom_cons.mpr ⟨by omega, hc.2⟩) hlo ha
    · split
      · next heq => exact Memory.put_wfFrom (heq ▸ hc.2.2.2) hlo ha
      · next hne => exact Memory.wfFrom_cons.mpr ⟨hc.1, hc.2.1, hc.2.2.1, ih hc.2.2.2 (by omega)⟩

/-- A write of storage: the written word reads back, and every other address reads as before (R56, R63). -/
theorem Memory.read_write {m : Memory} (h : m.wf = true) (a v b : Word) :
    (m.write a v).read b = if b = a then v else m.read b := by
  rw [Memory.read, Memory.write, Memory.lookup_insert h]
  by_cases hb : b = a
  · simp [hb]
  · rw [if_neg hb, if_neg (fun hn => hb (BitVec.eq_of_toNat_eq hn))]
    rfl

/-- The written word reads back. -/
theorem Memory.read_write_same {m : Memory} (h : m.wf = true) (a v : Word) : (m.write a v).read a = v := by
  rw [Memory.read_write h, if_pos rfl]

/-- Every other address reads as before. -/
theorem Memory.read_write_ne {m : Memory} (h : m.wf = true) {a b : Word} (v : Word) (hb : b ≠ a) :
    (m.write a v).read b = m.read b := by
  rw [Memory.read_write h, if_neg hb]

/-- A write keeps the canonical form. -/
theorem Memory.write_wf {m : Memory} (h : m.wf = true) (a v : Word) : (m.write a v).wf = true :=
  Memory.insert_wfFrom h (Nat.zero_le _) a.isLt

/-- A block of writes keeps the canonical form. -/
theorem Memory.writeWords_wf {m : Memory} (h : m.wf = true) (o : Word) (ws : List Word) :
    (m.writeWords o ws).wf = true := by
  induction ws generalizing m o with
  | nil => exact h
  | cons w ws ih => exact ih (Memory.write_wf h o w) (o + 1)

/-- A store operation keeps the canonical form. -/
theorem memWrite_wf {s : State} (h : s.mem.wf = true) (a v : Word) : (memWrite a v s).mem.wf = true :=
  Memory.write_wf h a v

/-- The memory at reset is canonical and reads as zero everywhere (R45, R61). -/
theorem reset_mem_wf : State.reset.mem.wf = true := rfl

theorem reset_mem_read (a : Word) : State.reset.mem.read a = 0 := rfl

end Sys2Proof.Machine
end

