-- ==== Sys2Proof/Laws/Ops.lean ====
section
/-!
SUPPORT. What each shared operation can do, said once: the requests that may end the run, the emissions, the scans, and
setcc. The meanings' proofs cite these lemmas and do not unfold the operations.
-/

namespace Sys2Proof.Machine

/-! ### Sequencing -/

/-- A step that goes on after a request has a next state in two ways: the request gave a value and the rest has that
next state, or the run ended in the request. -/
theorem andThen_eq_next {α : Type} {r : Access α} {k : α → State → Result} {t : State} :
    r.andThen k = .next t ↔ (∃ a s, r = .value a s ∧ k a s = .next t) ∨ r = .ended t := by
  cases r <;> simp [Access.andThen]

/-- It faults in two ways: the rest faults, or the core is stuck in the request. -/
theorem andThen_eq_fault {α : Type} {r : Access α} {k : α → State → Result} {f : Fault} :
    r.andThen k = .fault f ↔ (∃ a s, r = .value a s ∧ k a s = .fault f) ∨ r = .stuck f := by
  cases r <;> simp [Access.andThen]

/-- It is refused only if the rest is. -/
theorem andThen_eq_refused {α : Type} {r : Access α} {k : α → State → Result} {f : Refusal} :
    r.andThen k = .refused f ↔ ∃ a s, r = .value a s ∧ k a s = .refused f := by
  cases r <;> simp [Access.andThen]

@[simp] theorem andThen_value {α : Type} (a : α) (s : State) (k : α → State → Result) :
    (Access.value a s).andThen k = k a s := rfl

@[simp] theorem andThen_ended {α : Type} (s : State) (k : α → State → Result) :
    (Access.ended s : Access α).andThen k = .next s := rfl

@[simp] theorem andThen_stuck {α : Type} (f : Fault) (k : α → State → Result) :
    (Access.stuck f : Access α).andThen k = .fault f := rfl

/-! ### What ports may change -/

theorem PortsOnly.refl (s : State) : PortsOnly s s := ⟨rfl, rfl, rfl, rfl, rfl, List.prefix_refl _⟩

theorem PortsOnly.trans {s t u : State} (h : PortsOnly s t) (k : PortsOnly t u) : PortsOnly s u :=
  ⟨k.1.trans h.1, k.2.1.trans h.2.1, k.2.2.1.trans h.2.2.1, k.2.2.2.1.trans h.2.2.2.1,
    k.2.2.2.2.1.trans h.2.2.2.2.1, h.2.2.2.2.2.trans k.2.2.2.2.2⟩

theorem PortsOnly.reg {s t : State} (h : PortsOnly s t) (r : Reg) : t.reg r = s.reg r := by
  unfold State.reg; rw [h.1]

/-! ### Input requests (R12, R54) -/

/-- A value is the character the host answers, used up and recorded; the run goes on. -/
theorem inputRead_value {s s' : State} {c : Word} :
    inputRead s = .value c s' ↔ nextAnswer s = some (.char c) ∧ s' = consumeInput (.char c) s := by
  unfold inputRead
  rcases nextAnswer s with _ | (d | _ | _)
  case some.char =>
    constructor
    · intro h; obtain ⟨rfl, rfl⟩ := Access.value.inj h; exact ⟨rfl, rfl⟩
    · rintro ⟨h, rfl⟩; obtain rfl := InputAnswer.char.inj (Option.some.inj h); rfl
  all_goals simp

/-- The run ends in an input request exactly when the host answers end of input or I/O failure. -/
theorem inputRead_ended {s s' : State} :
    inputRead s = .ended s' ↔
      (nextAnswer s = some .endOfInput ∧ s' = terminate .endOfInput (consumeInput .endOfInput s)) ∨
      (nextAnswer s = some .ioFailure ∧ s' = raiseFatal .ioFailure (consumeInput .ioFailure s)) := by
  unfold inputRead
  rcases nextAnswer s with _ | (d | _ | _) <;> simp [eq_comm]

/-- The core is stuck in an input request exactly when the host never answers (R245). -/
theorem inputRead_stuck {s : State} {f : Fault} :
    inputRead s = .stuck f ↔ nextAnswer s = none ∧ f = .inputNeverAnswered := by
  unfold inputRead
  rcases nextAnswer s with _ | (d | _ | _) <;> simp [eq_comm]

theorem consumeInput_portsOnly (a : InputAnswer) (s : State) : PortsOnly s (consumeInput a s) :=
  ⟨rfl, rfl, rfl, rfl, rfl, List.prefix_append _ _⟩

theorem setStatus_portsOnly (v : RunStatus) (s : State) : PortsOnly s (s.setStatus v) :=
  ⟨rfl, rfl, rfl, rfl, rfl, List.prefix_refl _⟩

theorem inputRead_value_portsOnly {s s' : State} {c : Word} (h : inputRead s = .value c s') :
    PortsOnly s s' ∧ s'.status = s.status := by
  obtain ⟨-, rfl⟩ := inputRead_value.mp h
  exact ⟨consumeInput_portsOnly _ _, rfl⟩

theorem inputRead_ended_portsOnly {s s' : State} (h : inputRead s = .ended s') :
    PortsOnly s s' ∧ s'.status ≠ .running := by
  obtain ⟨-, rfl⟩ | ⟨-, rfl⟩ := inputRead_ended.mp h
  · exact ⟨(consumeInput_portsOnly _ _).trans (setStatus_portsOnly _ _), by simp⟩
  · exact ⟨(consumeInput_portsOnly _ _).trans (setStatus_portsOnly _ _), by simp⟩

/-! ### Memory reads (R53 to R55) -/

theorem memRead_status {a : Word} {s : State} (h : a = s.cfg.devStatusAddr) :
    memRead a s = .value s.cfg.statusReady s := by
  unfold memRead; rw [if_pos h]

theorem memRead_data {a : Word} {s : State} (h : ReadsHost a s) : memRead a s = inputRead s := by
  unfold memRead; rw [if_neg h.1, if_pos h.2]

theorem memRead_quiet {a : Word} {s : State} (h : ¬ ReadsHost a s) : memRead a s = .value (quietWord a s) s := by
  unfold memRead quietWord
  split
  · rfl
  · next h1 => rw [if_neg fun h2 => h ⟨h1, h2⟩]

/-- A read that answers a value changes nothing but the input port, and the run goes on. -/
theorem memRead_value_portsOnly {a v : Word} {s s' : State} (h : memRead a s = .value v s') :
    PortsOnly s s' ∧ s'.status = s.status := by
  by_cases hq : ReadsHost a s
  · rw [memRead_data hq] at h; exact inputRead_value_portsOnly h
  · rw [memRead_quiet hq] at h
    obtain ⟨-, rfl⟩ := Access.value.inj h
    exact ⟨PortsOnly.refl _, rfl⟩

/-- A read that ends the run is a read of the device data register (R54, R158). -/
theorem memRead_ended {a : Word} {s s' : State} (h : memRead a s = .ended s') :
    ReadsHost a s ∧ inputRead s = .ended s' := by
  by_cases hq : ReadsHost a s
  · exact ⟨hq, by rw [← h, memRead_data hq]⟩
  · rw [memRead_quiet hq] at h; cases h

theorem memRead_ended_portsOnly {a : Word} {s s' : State} (h : memRead a s = .ended s') :
    PortsOnly s s' ∧ s'.status ≠ .running :=
  inputRead_ended_portsOnly (memRead_ended h).2

/-- A read is stuck only at the device data register, when the host never answers (R245). -/
theorem memRead_stuck {a : Word} {s : State} {f : Fault} (h : memRead a s = .stuck f) :
    ReadsHost a s ∧ nextAnswer s = none ∧ f = .inputNeverAnswered := by
  by_cases hq : ReadsHost a s
  · rw [memRead_data hq] at h; exact ⟨hq, inputRead_stuck.mp h⟩
  · rw [memRead_quiet hq] at h; cases h

/-! ### Fetch (R80) -/

/-- A fetch that answers a word: the read at pc, then the increment. -/
theorem fetch_value {s s' : State} {ir : Word} :
    fetch s = .value ir s' ↔ ∃ s1, memRead s.pc s = .value ir s1 ∧ s' = s1.setPc (s1.pc + 1) := by
  unfold fetch
  split <;> simp_all [eq_comm]

theorem fetch_ended {s s' : State} : fetch s = .ended s' ↔ memRead s.pc s = .ended s' := by
  unfold fetch
  split <;> simp_all

theorem fetch_stuck {s : State} {f : Fault} : fetch s = .stuck f ↔ memRead s.pc s = .stuck f := by
  unfold fetch
  split <;> simp_all

/-- A fetch from plain storage (R66, R80). -/
theorem fetch_storage {s : State} (h1 : s.pc ≠ s.cfg.devStatusAddr) (h2 : s.pc ≠ s.cfg.devDataAddr) :
    fetch s = .value (s.mem.read s.pc) (s.setPc (s.pc + 1)) := by
  unfold fetch memRead; rw [if_neg h1, if_neg h2]

/-! ### Output requests (R13, R187) -/

/-- An emission that succeeds records the character and counts down to the host's failure. -/
theorem emit_value {c : Byte} {s s' : State} {u : Unit} (h : emit c s = .value u s') :
    PortsOnly s s' ∧ s'.status = s.status ∧ Emitted [c] s s' ∧ AcceptsOutput 1 s := by
  unfold emit at h
  split at h
  · next h0 =>
    obtain ⟨-, rfl⟩ := Access.value.inj h
    exact ⟨⟨rfl, rfl, rfl, rfl, rfl, List.prefix_append _ _⟩, rfl, ⟨rfl, rfl, by simp [h0], rfl⟩,
      by simp [AcceptsOutput, h0]⟩
  · cases h
  · next n h0 =>
    obtain ⟨-, rfl⟩ := Access.value.inj h
    exact ⟨⟨rfl, rfl, rfl, rfl, rfl, List.prefix_append _ _⟩, rfl, ⟨rfl, rfl, by simp [h0], rfl⟩,
      by simp [AcceptsOutput, h0]⟩

/-- An emission that fails ends the run and records the failure (R187). -/
theorem emit_ended {c : Byte} {s s' : State} (h : emit c s = .ended s') :
    s.outputFailsAfter = some 0 ∧ s' = raiseFatal .ioFailure (s.record (.output c .ioFailure)) := by
  unfold emit at h
  split at h
  · cases h
  · next h0 => exact ⟨h0, (Access.ended.inj h).symm⟩
  · cases h

theorem emit_ended_portsOnly {c : Byte} {s s' : State} (h : emit c s = .ended s') :
    PortsOnly s s' ∧ s'.status ≠ .running := by
  obtain ⟨-, rfl⟩ := emit_ended h
  exact ⟨⟨rfl, rfl, rfl, rfl, rfl, List.prefix_append _ _⟩, by simp⟩

/-- An output request is always answered. -/
theorem emit_ne_stuck (c : Byte) (s : State) (f : Fault) : emit c s ≠ .stuck f := by
  unfold emit; split <;> simp

/-- Where the host accepts, the character is emitted. -/
theorem emit_accepted {c : Byte} {s : State} (h : AcceptsOutput 1 s) :
    ∃ s', emit c s = .value () s' ∧ Emitted [c] s s' ∧ PortsOnly s s' ∧ s'.status = s.status := by
  cases he : emit c s with
  | value u s' =>
    have := emit_value he
    exact ⟨s', rfl, this.2.2.1, this.1, this.2.1⟩
  | ended s' => exact absurd (h 0 (emit_ended he).1) (by omega)
  | stuck f => exact absurd he (emit_ne_stuck _ _ _)

theorem Emitted.append {cs ds : List Byte} {s t u : State} (h : Emitted cs s t) (k : Emitted ds t u) :
    Emitted (cs ++ ds) s u := by
  obtain ⟨h1, h2, h3, h4⟩ := h
  obtain ⟨k1, k2, k3, k4⟩ := k
  refine ⟨k1.trans h1, k2.trans h2, ?_, ?_⟩
  · rw [k3, h3]
    cases s.outputFailsAfter <;> simp [Nat.sub_sub]
  · rw [k4, h4, List.map_append, List.append_assoc]

theorem AcceptsOutput.after {cs : List Byte} {n : Nat} {s t : State} (h : AcceptsOutput (cs.length + n) s)
    (k : Emitted cs s t) : AcceptsOutput n t := by
  intro j hj
  rw [k.2.2.1] at hj
  cases ho : s.outputFailsAfter with
  | none => simp [ho] at hj
  | some m =>
    have := h m ho
    simp [ho] at hj
    omega

/-- A list of emissions that all succeed. -/
theorem emitAll_value {cs : List Byte} {s s' : State} {u : Unit} (h : emitAll cs s = .value u s') :
    PortsOnly s s' ∧ s'.status = s.status ∧ Emitted cs s s' := by
  induction cs generalizing s with
  | nil =>
    obtain ⟨-, rfl⟩ := Access.value.inj h
    exact ⟨PortsOnly.refl _, rfl, rfl, rfl, by cases s.outputFailsAfter <;> rfl, by simp⟩
  | cons c cs ih =>
    rw [emitAll] at h
    split at h
    · next he =>
      have h1 := emit_value he
      have h2 := ih h
      exact ⟨h1.1.trans h2.1, h2.2.1.trans h1.2.1, h1.2.2.1.append h2.2.2⟩
    · cases h
    · cases h

/-- A list of emissions one of which fails ends the run. -/
theorem emitAll_ended_portsOnly {cs : List Byte} {s s' : State} (h : emitAll cs s = .ended s') :
    PortsOnly s s' ∧ s'.status = .fatal .ioFailure := by
  induction cs generalizing s with
  | nil => cases h
  | cons c cs ih =>
    rw [emitAll] at h
    split at h
    · next he =>
      have h2 := ih h
      exact ⟨(emit_value he).1.trans h2.1, h2.2⟩
    · next s1 he =>
      cases h
      exact ⟨(emit_ended_portsOnly he).1, by rw [(emit_ended he).2]; rfl⟩
    · cases h

theorem emitAll_ne_stuck (cs : List Byte) (s : State) (f : Fault) : emitAll cs s ≠ .stuck f := by
  induction cs generalizing s with
  | nil => simp [emitAll]
  | cons c cs ih =>
    rw [emitAll]
    split
    · exact ih _
    · simp
    · next he => exact absurd he (emit_ne_stuck _ _ _)

/-- Where the host accepts that many requests, the whole list is emitted. -/
theorem emitAll_accepted {cs : List Byte} {s : State} (h : AcceptsOutput cs.length s) :
    ∃ s', emitAll cs s = .value () s' ∧ Emitted cs s s' ∧ PortsOnly s s' ∧ s'.status = s.status := by
  induction cs generalizing s with
  | nil =>
    exact ⟨s, rfl, ⟨rfl, rfl, by cases s.outputFailsAfter <;> rfl, by simp⟩, PortsOnly.refl _, rfl⟩
  | cons c cs ih =>
    obtain ⟨s1, he, h1, hp1, hs1⟩ := emit_accepted (c := c) (s := s) fun k hk => by
      have := h k hk; simp at this; omega
    have h' : AcceptsOutput cs.length s1 := AcceptsOutput.after (cs := [c]) (by
      intro k hk; have := h k hk; simp at this ⊢; omega) h1
    obtain ⟨s2, he2, h2, hp2, hs2⟩ := ih h'
    refine ⟨s2, ?_, h1.append h2, hp1.trans hp2, hs2.trans hs1⟩
    rw [emitAll, he]; exact he2

/-- Where the host fails within the list, the run ends there: the characters before the failure are emitted, the one that
failed is recorded as failed, and no other port is used (R187). -/
theorem emitAll_fails {cs : List Byte} {k : Nat} (hk : k < cs.length) {s : State} (h : s.outputFailsAfter = some k) :
    ∃ s', emitAll cs s = .ended s' ∧ PortsOnly s s' ∧ s'.status = .fatal .ioFailure ∧ s'.inputChars = s.inputChars ∧
      s'.trace = s.trace ++ (cs.take k).map (fun c => .output c .ok) ++ [.output cs[k] .ioFailure] := by
  induction cs generalizing s k with
  | nil => simp at hk
  | cons c cs ih =>
    cases k with
    | zero =>
      have he : emit c s = .ended (raiseFatal .ioFailure (s.record (.output c .ioFailure))) := by
        unfold emit; rw [h]
      exact ⟨_, by rw [emitAll, he], (emit_ended_portsOnly he).1, rfl, rfl, by simp⟩
    | succ k =>
      have he : emit c s = .value () ((s.setOutputFailsAfter (some k)).record (.output c .ok)) := by
        unfold emit; rw [h]
      obtain ⟨s', h1, h2, h3, h4, h5⟩ := ih (by simpa using hk)
        (s := (s.setOutputFailsAfter (some k)).record (.output c .ok)) rfl
      exact ⟨s', by rw [emitAll, he]; exact h1, (emit_value he).1.trans h2, h3, h4, by rw [h5]; simp⟩

/-! ### Scans (R192, R196) -/

/-- One more word of a scan. -/
theorem scan_succ (chars : Word → List Byte) (n : Nat) (a : Word) (s : State) :
    scan chars (n + 1) a s = (memRead a s).andThen fun w s1 =>
      if w = 0 then .next s1 else (emitAll (chars w) s1).andThen fun _ s2 => scan chars n (a + 1) s2 := rfl

/-- A scan that has a next state changed nothing but the ports and the run status. -/
theorem scan_next_portsOnly {chars : Word → List Byte} {n : Nat} {a : Word} {s t : State}
    (h : scan chars n a s = .next t) : PortsOnly s t := by
  induction n generalizing a s with
  | zero => cases h
  | succ n ih =>
    rw [scan_succ, andThen_eq_next] at h
    obtain ⟨w, s1, hr, h⟩ | h := h
    · have h1 := (memRead_value_portsOnly hr).1
      split at h
      · cases h; exact h1
      · rw [andThen_eq_next] at h
        obtain ⟨u, s2, he, h⟩ | h := h
        · exact h1.trans ((emitAll_value he).1.trans (ih h))
        · exact h1.trans (emitAll_ended_portsOnly h).1
    · exact (memRead_ended_portsOnly h).1

/-- A scan is never refused. -/
theorem scan_ne_refused (chars : Word → List Byte) (n : Nat) (a : Word) (s : State) (f : Refusal) :
    scan chars n a s ≠ .refused f := by
  induction n generalizing a s with
  | zero => simp [scan]
  | succ n ih =>
    rw [scan_succ, Ne, andThen_eq_refused]
    rintro ⟨w, s1, -, h⟩
    split at h
    · cases h
    · rw [andThen_eq_refused] at h
      obtain ⟨u, s2, -, h⟩ := h
      exact ih _ _ h

/-! ### Condition codes (R37) -/

/-- The bits of a psr after setcc. -/
theorem psrWithCC_getLsbD (psr v : Word) (i : Nat) :
    (psrWithCC psr v).getLsbD i =
      if i = 0 then flagP v else if i = 1 then flagZ v else if i = 2 then flagN v else psr.getLsbD i := by
  by_cases hi : i < 16
  · have h : ∀ a b c : Bool, ∀ j < 3,
        (BitVec.ofBool a ++ BitVec.ofBool b ++ BitVec.ofBool c : BitVec 3).getLsbD j =
          if j = 0 then c else if j = 1 then b else a := by decide
    have hc : ∀ j < 3, (ccBits v).getLsbD j = if j = 0 then flagP v else if j = 1 then flagZ v else flagN v :=
      fun j hj => h _ _ _ j hj
    have h0 := hc 0 (by omega); have h1 := hc 1 (by omega); have h2 := hc 2 (by omega)
    simp only [reduceIte, OfNat.ofNat_ne_zero, OfNat.ofNat_ne_one, one_ne_zero] at h0 h1 h2
    unfold psrWithCC
    interval_cases i <;> simp_all
  · rw [BitVec.getLsbD_of_ge _ _ (by omega), BitVec.getLsbD_of_ge _ _ (by omega),
      if_neg (by omega), if_neg (by omega), if_neg (by omega)]

/-- setcc says the sign of its value and keeps bits 15:3 (R37). -/
theorem setcc_flags (v : Word) (s : State) : FlagsOf v s (setcc v s) := by
  refine ⟨?_, ?_, ?_, fun i hi => ?_⟩
  · rw [setcc_psr, psrWithCC_getLsbD]
    by_cases h : v = 0
    · subst h; rfl
    · have hz : (v != 0) = true := bne_iff_ne.mpr h
      simp only [flagN, hz, Bool.and_true]; rfl
  · rw [setcc_psr, psrWithCC_getLsbD]; rfl
  · rw [setcc_psr, psrWithCC_getLsbD]; rfl
  · rw [setcc_psr, psrWithCC_getLsbD, if_neg (by omega), if_neg (by omega), if_neg (by omega)]

/-- What a result-producing instruction does with its value (R38): the register, its flags, and nothing else. -/
theorem writeResult_writesReg (dr : Reg) (v : Word) (s : State) :
    WritesReg dr v s (writeResult dr v s) ∧ KeepsPorts s (writeResult dr v s) :=
  ⟨⟨reg_writeResult_same dr v s, fun _ hr => reg_writeResult_ne v s (by simpa using hr),
    setcc_flags v (s.setReg dr v), rfl, fun _ => rfl, rfl, rfl⟩, rfl, rfl, rfl, rfl⟩

/-- What a store does (R56): the word, and nothing else. -/
theorem memWrite_stores {s : State} (h : s.mem.wf = true) (a v : Word) :
    Stores a v s (memWrite a v s) ∧ KeepsPorts s (memWrite a v s) :=
  ⟨⟨Memory.read_write_same h a v, fun _ hb => Memory.read_write_ne h v hb, fun _ _ => rfl, rfl, rfl, rfl, rfl⟩,
    rfl, rfl, rfl, rfl⟩

end Sys2Proof.Machine
end

