-- ==== Sys2Proof/Laws/Exec.lean ====
section
/-!
SUPPORT. What exec and step can do, said once: each lemma lists every way in which a meaning has a next state. The proofs
about steps cite these and do not unfold the meanings.
-/

namespace Sys2Proof.Machine

/-! ### Reads -/

/-- An answered input request, in the words of Safety. -/
theorem tookInput_consume (a : InputAnswer) (s : State) : TookInput a s (consumeInput a s) := ⟨rfl, rfl, rfl, rfl⟩

/-- A read answers a value exactly as the spec's table of addresses says (R53 to R55). -/
theorem readsTo_iff {a v : Word} {s s1 : State} : ReadsTo a s v s1 ↔ memRead a s = .value v s1 := by
  constructor
  · rintro (⟨h, rfl, rfl⟩ | ⟨h, hc, hp, hs, ht⟩)
    · exact memRead_quiet h
    · rw [memRead_data h, inputRead_value]
      refine ⟨hc, ?_⟩
      obtain ⟨p1,p2,p3,p4,p5,-⟩ := hp
      obtain ⟨t1,t2,t3,t4⟩ := ht
      cases s1; simp_all [consumeInput, State.record, State.setInputChars]
  · intro h
    by_cases hq : ReadsHost a s
    · rw [memRead_data hq] at h
      obtain ⟨hc, rfl⟩ := inputRead_value.mp h
      exact .inr ⟨hq, hc, consumeInput_portsOnly _ _, rfl, tookInput_consume _ _⟩
    · rw [memRead_quiet hq] at h
      obtain ⟨rfl, rfl⟩ := Access.value.inj h
      exact .inl ⟨hq, rfl, rfl⟩

/-- Everything a load's data read can come to. -/
theorem loadFrom_next {dr : Reg} {a : Word} {s t : State} (h : loadFrom dr a s = .next t) :
    (∃ v s1, memRead a s = .value v s1 ∧ t = writeResult dr v s1) ∨ memRead a s = .ended t := by
  unfold loadFrom at h
  rw [andThen_eq_next] at h
  obtain ⟨v, s1, h1, h2⟩ | h := h
  · exact .inl ⟨v, s1, h1, (Host.Outcome.next.inj h2).symm⟩
  · exact .inr h

/-! ### Service routines -/

/-- What IN leaves, however it ends. -/
theorem inRoutine_next {s t : State} (h : inRoutine s = .next t) :
    t.pc = s.pc ∧ t.psr = s.psr ∧ t.mem = s.mem ∧ t.cfg = s.cfg ∧ s.trace <+: t.trace ∧
      ∀ r, r ≠ .r0 → t.reg r = s.reg r := by
  have key : ∀ {u : State}, PortsOnly s u →
      u.pc = s.pc ∧ u.psr = s.psr ∧ u.mem = s.mem ∧ u.cfg = s.cfg ∧ s.trace <+: u.trace ∧
        ∀ r, r ≠ .r0 → u.reg r = s.reg r := fun h =>
    ⟨h.2.1, h.2.2.1, h.2.2.2.1, h.2.2.2.2.1, h.2.2.2.2.2, fun r _ => h.reg r⟩
  unfold inRoutine at h
  rw [andThen_eq_next] at h
  obtain ⟨u, s1, h1, h⟩ | h := h
  · have p1 := (emitAll_value h1).1
    rw [andThen_eq_next] at h
    obtain ⟨c, s2, h2, h⟩ | h := h
    · have p2 := (inputRead_value_portsOnly h2).1
      rw [andThen_eq_next] at h
      have fin : ∀ u, PortsOnly (s2.setReg .r0 c) u →
          u.pc = s.pc ∧ u.psr = s.psr ∧ u.mem = s.mem ∧ u.cfg = s.cfg ∧ s.trace <+: u.trace ∧
            ∀ r, r ≠ .r0 → u.reg r = s.reg r := by
        intro u hu
        have q := key (p1.trans p2)
        refine ⟨hu.2.1.trans q.1, hu.2.2.1.trans q.2.1, hu.2.2.2.1.trans q.2.2.1, hu.2.2.2.2.1.trans q.2.2.2.1,
          q.2.2.2.2.1.trans hu.2.2.2.2.2, fun r hr => ?_⟩
        rw [hu.reg, reg_setReg_ne _ _ hr]; exact (q.2.2.2.2.2 r hr)
      obtain ⟨u', s3, h3, h⟩ | h := h
      · cases h; exact fin _ (emit_value h3).1
      · exact fin _ (emit_ended_portsOnly h).1
    · exact key (p1.trans (inputRead_ended_portsOnly h).1)
  · exact key (emitAll_ended_portsOnly h).1

/-- What a TRAP leaves, whatever its vector and however its routine ends. -/
theorem trap_next (v : BitVec 8) {s t : State} (h : exec (.trap v) s = .next t) :
    t.pc = s.pc ∧ t.psr = s.psr ∧ t.mem = s.mem ∧ t.cfg = s.cfg ∧ s.trace <+: t.trace ∧ t.reg .r7 = s.pc ∧
      ∀ r, r ≠ .r7 → (r = .r0 → ¬ (v = 0x20 ∨ v = 0x23)) → t.reg r = s.reg r := by
  have key : ∀ {u : State}, PortsOnly (enterTrap s) u →
      u.pc = s.pc ∧ u.psr = s.psr ∧ u.mem = s.mem ∧ u.cfg = s.cfg ∧ s.trace <+: u.trace ∧ u.reg .r7 = s.pc ∧
        ∀ r, r ≠ .r7 → (r = .r0 → ¬ (v = 0x20 ∨ v = 0x23)) → u.reg r = s.reg r := fun h =>
    ⟨h.2.1, h.2.2.1, h.2.2.2.1, h.2.2.2.2.1, h.2.2.2.2.2, (h.reg _).trans (by simp), fun r hr _ => (h.reg r).trans (reg_enterTrap_ne s hr)⟩
  change execTrap v s = _ at h
  unfold execTrap at h
  split at h
  · next hv =>
    unfold getcRoutine at h
    rw [andThen_eq_next] at h
    obtain ⟨c, s1, h1, h⟩ | h := h
    · cases h
      have p := key (inputRead_value_portsOnly h1).1
      refine ⟨p.1, p.2.1, p.2.2.1, p.2.2.2.1, p.2.2.2.2.1, ?_, fun r hr h0 => ?_⟩
      · rw [reg_setReg_ne _ _ (by decide)]; exact p.2.2.2.2.2.1
      · rw [reg_setReg_ne _ _ (fun e => h0 e (.inl hv)), (inputRead_value_portsOnly h1).1.reg, reg_enterTrap_ne _ hr]
    · exact key (inputRead_ended_portsOnly h).1
  split at h
  · unfold outRoutine at h
    rw [andThen_eq_next] at h
    obtain ⟨c, s1, h1, h⟩ | h := h
    · cases h; exact key (emit_value h1).1
    · exact key (emit_ended_portsOnly h).1
  split at h
  · exact key (scan_next_portsOnly h)
  split at h
  · next hv =>
    have p := inRoutine_next h
    refine ⟨p.1, p.2.1, p.2.2.1, p.2.2.2.1, p.2.2.2.2.1, (p.2.2.2.2.2 _ (by decide)).trans (by simp), fun r hr h0 => ?_⟩
    rw [p.2.2.2.2.2 r (fun e => h0 e (.inr hv)), reg_enterTrap_ne _ hr]
  split at h
  · exact key (scan_next_portsOnly h)
  split at h
  · cases h; exact key (setStatus_portsOnly _ _)
  · cases h; exact key (setStatus_portsOnly _ _)

/-- A longer bound changes no scan that ends. -/
theorem scan_mono {ch : Word → List Byte} {n : Nat} {a : Word} {s t : State} (h : scan ch n a s = .next t) (k : Nat) :
    scan ch (n + k) a s = .next t := by
  induction n generalizing a s with
  | zero => cases h
  | succ n ih =>
    rw [show n + 1 + k = (n + k) + 1 by omega, scan_succ, andThen_eq_next]
    rw [scan_succ, andThen_eq_next] at h
    obtain ⟨w, s1, hr, h⟩ | h := h
    · refine .inl ⟨w, s1, hr, ?_⟩
      split at h
      · next h0 => rw [if_pos h0]; exact h
      · next h0 =>
        rw [if_neg h0]
        rw [andThen_eq_next] at h ⊢
        obtain ⟨u, s2, he, h⟩ | h := h
        · exact .inl ⟨u, s2, he, ih h⟩
        · exact .inr h
    · exact .inr h

/-- The spec's unbounded loop is the bounded scan under some bound. -/
theorem scanRuns_iff {ch : Word → List Byte} {a : Word} {s t : State} :
    ScanRuns ch a s t ↔ ∃ n, scan ch n a s = .next t := by
  constructor
  · intro h
    induction h with
    | zeroWord h => exact ⟨1, by rw [scan_succ, h]; rfl⟩
    | readEnds h => exact ⟨1, by rw [scan_succ, h]; rfl⟩
    | emitEnds h hw he => exact ⟨1, by rw [scan_succ, h, andThen_value, if_neg hw, he]; rfl⟩
    | goOn h hw he _ ih =>
      obtain ⟨n, ih⟩ := ih
      exact ⟨n + 1, by rw [scan_succ, h, andThen_value, if_neg hw, he]; exact ih⟩
  · rintro ⟨n, h⟩
    induction n generalizing a s with
    | zero => cases h
    | succ n ih =>
      rw [scan_succ, andThen_eq_next] at h
      obtain ⟨w, s1, hr, h⟩ | h := h
      · split at h
        · next h0 => subst h0; obtain rfl := Host.Outcome.next.inj h; exact .zeroWord hr
        · next h0 =>
          rw [andThen_eq_next] at h
          obtain ⟨u, s2, he, h⟩ | h := h
          · exact .goOn hr h0 he (ih h)
          · exact .emitEnds hr h0 h
      · exact .readEnds h

/-- A read is stuck exactly when it asks the host and the host never answers (R245). -/
theorem memRead_unanswered {a : Word} {s : State} :
    memRead a s = .stuck .inputNeverAnswered ↔ ReadsHost a s ∧ nextAnswer s = none := by
  constructor
  · intro h
    by_cases hq : ReadsHost a s
    · rw [memRead_data hq] at h
      exact ⟨hq, (inputRead_stuck.mp h).1⟩
    · rw [memRead_quiet hq] at h
      cases h
  · rintro ⟨hq, hn⟩
    rw [memRead_data hq]
    exact inputRead_stuck.mpr ⟨hn, rfl⟩

/-- The spec's unbounded loop holds exactly when the bounded scan does under some bound. -/
theorem scanHolds_iff {chars : Word → List Byte} {a : Word} {s : State} :
    ScanHolds chars a s ↔ ∃ n, scan chars n a s = .fault .inputNeverAnswered := by
  constructor
  · intro h
    induction h with
    | unanswered h hn => exact ⟨1, by rw [scan_succ, memRead_unanswered.mpr ⟨h, hn⟩]; rfl⟩
    | goOn h hw he _ ih =>
      obtain ⟨n, ih⟩ := ih
      exact ⟨n + 1, by rw [scan_succ, h, andThen_value, if_neg hw, he]; exact ih⟩
  · rintro ⟨n, h⟩
    induction n generalizing a s with
    | zero => cases h
    | succ n ih =>
      rw [scan_succ, andThen_eq_fault] at h
      obtain ⟨w, s1, hr, h⟩ | h := h
      · split at h
        · cases h
        · next h0 =>
          rw [andThen_eq_fault] at h
          obtain ⟨u, s2, he, h⟩ | h := h
          · exact .goOn hr h0 he (ih h)
          · exact absurd h (emitAll_ne_stuck _ _ _)
      · exact .unanswered (memRead_unanswered.mp h).1 (memRead_unanswered.mp h).2

/-! ### exec and step -/

/-- Everything exec can do: use ports, or end the run in them; write a register with its flags; set pc, with or
without the link; store one word; trap. -/
theorem exec_cases {i : Instr} {s t : State} (h : exec i s = .next t) :
   (PortsOnly s t ∧ (t.status ≠ .running ∨ setccOf i = none)) ∨
   (∃ dr v s1, setccOf i = some dr ∧ PortsOnly s s1 ∧ s1.status = s.status ∧ t = writeResult dr v s1) ∨
   (writesPc i = true ∧ setccOf i = none ∧ ∃ v, (t = s.setPc v ∨ (t = (link s).setPc v ∧ regWriters i = [.r7]))) ∨
   (∃ a sr s1, writesMem i = true ∧ PortsOnly s s1 ∧ s1.status = s.status ∧ t = memWrite a (s1.reg sr) s1) ∨
   (∃ v, i = .trap v) := by
  cases i
  case addReg => exact .inr (.inl ⟨_, _, s, rfl, .refl s, rfl, (Host.Outcome.next.inj h).symm⟩)
  case addImm => exact .inr (.inl ⟨_, _, s, rfl, .refl s, rfl, (Host.Outcome.next.inj h).symm⟩)
  case andReg => exact .inr (.inl ⟨_, _, s, rfl, .refl s, rfl, (Host.Outcome.next.inj h).symm⟩)
  case andImm => exact .inr (.inl ⟨_, _, s, rfl, .refl s, rfl, (Host.Outcome.next.inj h).symm⟩)
  case not => exact .inr (.inl ⟨_, _, s, rfl, .refl s, rfl, (Host.Outcome.next.inj h).symm⟩)
  case lea => exact .inr (.inl ⟨_, _, s, rfl, .refl s, rfl, (Host.Outcome.next.inj h).symm⟩)
  case br n z p o =>
    obtain rfl := Host.Outcome.next.inj h
    split
    · exact .inr (.inr (.inl ⟨rfl, rfl, _, .inl rfl⟩))
    · exact .inl ⟨.refl _, .inr rfl⟩
  case jmp => exact .inr (.inr (.inl ⟨rfl, rfl, _, .inl (Host.Outcome.next.inj h).symm⟩))
  case ret => exact .inr (.inr (.inl ⟨rfl, rfl, _, .inl (Host.Outcome.next.inj h).symm⟩))
  case jsr => exact .inr (.inr (.inl ⟨rfl, rfl, _, .inr ⟨(Host.Outcome.next.inj h).symm, rfl⟩⟩))
  case jsrr => exact .inr (.inr (.inl ⟨rfl, rfl, _, .inr ⟨(Host.Outcome.next.inj h).symm, rfl⟩⟩))
  case ld dr o =>
    obtain ⟨v, s1, h1, rfl⟩ | h := loadFrom_next h
    · exact .inr (.inl ⟨_, _, s1, rfl, (memRead_value_portsOnly h1).1, (memRead_value_portsOnly h1).2, rfl⟩)
    · exact .inl ⟨(memRead_ended_portsOnly h).1, .inl (memRead_ended_portsOnly h).2⟩
  case ldr dr b o =>
    obtain ⟨v, s1, h1, rfl⟩ | h := loadFrom_next h
    · exact .inr (.inl ⟨_, _, s1, rfl, (memRead_value_portsOnly h1).1, (memRead_value_portsOnly h1).2, rfl⟩)
    · exact .inl ⟨(memRead_ended_portsOnly h).1, .inl (memRead_ended_portsOnly h).2⟩
  case ldi dr o =>
    change (memRead (pcRel9 o s) s).andThen _ = _ at h
    rw [andThen_eq_next] at h
    obtain ⟨p, s1, h1, h⟩ | h := h
    · have q1 := memRead_value_portsOnly h1
      obtain ⟨v, s2, h2, rfl⟩ | h := loadFrom_next h
      · have q2 := memRead_value_portsOnly h2
        exact .inr (.inl ⟨_, _, s2, rfl, q1.1.trans q2.1, q2.2.trans q1.2, rfl⟩)
      · exact .inl ⟨q1.1.trans (memRead_ended_portsOnly h).1, .inl (memRead_ended_portsOnly h).2⟩
    · exact .inl ⟨(memRead_ended_portsOnly h).1, .inl (memRead_ended_portsOnly h).2⟩
  case st => exact .inr (.inr (.inr (.inl ⟨_, _, s, rfl, .refl s, rfl, (Host.Outcome.next.inj h).symm⟩)))
  case str => exact .inr (.inr (.inr (.inl ⟨_, _, s, rfl, .refl s, rfl, (Host.Outcome.next.inj h).symm⟩)))
  case sti =>
    change (memRead _ s).andThen _ = _ at h
    rw [andThen_eq_next] at h
    obtain ⟨p, s1, h1, h⟩ | h := h
    · have q1 := memRead_value_portsOnly h1
      exact .inr (.inr (.inr (.inl ⟨_, _, s1, rfl, q1.1, q1.2, (Host.Outcome.next.inj h).symm⟩)))
    · exact .inl ⟨(memRead_ended_portsOnly h).1, .inl (memRead_ended_portsOnly h).2⟩
  case rti => obtain rfl := Host.Outcome.next.inj h; exact .inl ⟨setStatus_portsOnly _ _, .inr rfl⟩
  case trap v => exact .inr (.inr (.inr (.inr ⟨v, rfl⟩)))
  case unassigned =>
    obtain rfl := Host.Outcome.next.inj h
    exact .inl ⟨⟨rfl, rfl, rfl, rfl, rfl, List.prefix_append _ _⟩, .inr rfl⟩

/-- Everything step can do: nothing in a terminal state; run what it fetched; end the run in the fetch. -/
theorem step_cases {s t : State} (h : step s = .next t) :
    (s.status ≠ .running ∧ t = s) ∨
    (∃ ir s1, PortsOnly s s1 ∧ s1.status = s.status ∧ exec (decode ir) (s1.setPc (s1.pc + 1)) = .next t) ∨
    PortsOnly s t := by
  unfold step at h
  split at h
  · rw [andThen_eq_next] at h
    obtain ⟨ir, s1, h1, h⟩ | h := h
    · obtain ⟨s2, h2, rfl⟩ := fetch_value.mp h1
      exact .inr (.inl ⟨ir, s2, (memRead_value_portsOnly h2).1, (memRead_value_portsOnly h2).2, h⟩)
    · exact .inr (.inr (memRead_ended_portsOnly (fetch_ended.mp h)).1)
  · next hr => exact .inl ⟨hr, (Host.Outcome.next.inj h).symm⟩

end Sys2Proof.Machine
end

