-- ==== Sys2Proof/Laws/PerInstr.lean ====
section
/-!
SUPPORT. A statement about every instruction, one lemma per constructor: the encoder writes each instruction into its
own row of spec/opcode_table.json.
-/

namespace Sys2Proof.Laws

/-- The mask of an instruction's row in spec/opcode_table.json. -/
def rowMask : Instr → Word
  | .addReg _ _ _ | .addImm _ _ _ | .andReg _ _ _ | .andImm _ _ _ => 0xF020
  | .jsr _ | .jsrr _ => 0xF800
  | .ret => 0xF1C0
  | .not _ _ | .br _ _ _ _ | .jmp _ | .ld _ _ | .ldi _ _ | .ldr _ _ _ | .lea _ _ => 0xF000
  | .st _ _ | .sti _ _ | .str _ _ _ | .rti | .trap _ | .unassigned _ => 0xF000

/-- The match value of an instruction's row in spec/opcode_table.json. -/
def rowMatch : Instr → Word
  | .addReg _ _ _ => 0x1000
  | .addImm _ _ _ => 0x1020
  | .andReg _ _ _ => 0x5000
  | .andImm _ _ _ => 0x5020
  | .not _ _ => 0x9000
  | .br _ _ _ _ => 0x0000
  | .jmp _ => 0xC000
  | .ret => 0xC1C0
  | .jsr _ => 0x4800
  | .jsrr _ => 0x4000
  | .ld _ _ => 0x2000
  | .ldi _ _ => 0xA000
  | .ldr _ _ _ => 0x6000
  | .lea _ _ => 0xE000
  | .st _ _ => 0x3000
  | .sti _ _ => 0xB000
  | .str _ _ _ => 0x7000
  | .rti => 0x8000
  | .trap _ => 0xF000
  | .unassigned _ => 0xD000

/-- The encoded word lies in the instruction's row. -/
def EncodesInRow.Statement (i : Instr) : Prop := encode i &&& rowMask i = rowMatch i

/-- A mask that is zero on a low field drops that field. -/
theorem append_and_high {n k : Nat} (hi m : BitVec n) (lo : BitVec k) :
    (hi ++ lo) &&& (m ++ 0#k) = (hi &&& m) ++ 0#k := by
  rw [BitVec.and_append, BitVec.and_zero]

theorem EncodesInRow.addReg (dr sr1 sr2 : Reg) : EncodesInRow.Statement (.addReg dr sr1 sr2) := by
  cases dr <;> cases sr1 <;> cases sr2 <;> rfl

theorem EncodesInRow.andReg (dr sr1 sr2 : Reg) : EncodesInRow.Statement (.andReg dr sr1 sr2) := by
  cases dr <;> cases sr1 <;> cases sr2 <;> rfl

theorem EncodesInRow.addImm (dr sr1 : Reg) (imm5 : BitVec 5) : EncodesInRow.Statement (.addImm dr sr1 imm5) :=
  (append_and_high (0b0001#4 ++ dr.toBits ++ sr1.toBits ++ 0b1#1) (0b11110000001#11) imm5).trans
    (by cases dr <;> cases sr1 <;> rfl)

theorem EncodesInRow.andImm (dr sr1 : Reg) (imm5 : BitVec 5) : EncodesInRow.Statement (.andImm dr sr1 imm5) :=
  (append_and_high (0b0101#4 ++ dr.toBits ++ sr1.toBits ++ 0b1#1) (0b11110000001#11) imm5).trans
    (by cases dr <;> cases sr1 <;> rfl)

theorem EncodesInRow.not (dr sr : Reg) : EncodesInRow.Statement (.not dr sr) := by
  cases dr <;> cases sr <;> rfl

theorem EncodesInRow.br (n z p : Bool) (offset9 : BitVec 9) : EncodesInRow.Statement (.br n z p offset9) :=
  (append_and_high (0b0000#4 ++ BitVec.ofBool n ++ BitVec.ofBool z ++ BitVec.ofBool p) (0b1111000#7) offset9).trans
    (by cases n <;> cases z <;> cases p <;> rfl)

theorem EncodesInRow.jmp (baseR : Reg) : EncodesInRow.Statement (.jmp baseR) := by
  cases baseR <;> rfl

theorem EncodesInRow.ret : EncodesInRow.Statement .ret := rfl

theorem EncodesInRow.jsr (offset11 : BitVec 11) : EncodesInRow.Statement (.jsr offset11) :=
  append_and_high (0b01001#5) (0b11111#5) offset11

theorem EncodesInRow.jsrr (baseR : Reg) : EncodesInRow.Statement (.jsrr baseR) := by
  cases baseR <;> rfl

theorem EncodesInRow.ld (dr : Reg) (offset9 : BitVec 9) : EncodesInRow.Statement (.ld dr offset9) :=
  (append_and_high (0b0010#4 ++ dr.toBits) (0b1111000#7) offset9).trans (by cases dr <;> rfl)

theorem EncodesInRow.ldi (dr : Reg) (offset9 : BitVec 9) : EncodesInRow.Statement (.ldi dr offset9) :=
  (append_and_high (0b1010#4 ++ dr.toBits) (0b1111000#7) offset9).trans (by cases dr <;> rfl)

theorem EncodesInRow.ldr (dr baseR : Reg) (offset6 : BitVec 6) : EncodesInRow.Statement (.ldr dr baseR offset6) :=
  (append_and_high (0b0110#4 ++ dr.toBits ++ baseR.toBits) (0b1111000000#10) offset6).trans
    (by cases dr <;> cases baseR <;> rfl)

theorem EncodesInRow.lea (dr : Reg) (offset9 : BitVec 9) : EncodesInRow.Statement (.lea dr offset9) :=
  (append_and_high (0b1110#4 ++ dr.toBits) (0b1111000#7) offset9).trans (by cases dr <;> rfl)

theorem EncodesInRow.st (sr : Reg) (offset9 : BitVec 9) : EncodesInRow.Statement (.st sr offset9) :=
  (append_and_high (0b0011#4 ++ sr.toBits) (0b1111000#7) offset9).trans (by cases sr <;> rfl)

theorem EncodesInRow.sti (sr : Reg) (offset9 : BitVec 9) : EncodesInRow.Statement (.sti sr offset9) :=
  (append_and_high (0b1011#4 ++ sr.toBits) (0b1111000#7) offset9).trans (by cases sr <;> rfl)

theorem EncodesInRow.str (sr baseR : Reg) (offset6 : BitVec 6) : EncodesInRow.Statement (.str sr baseR offset6) :=
  (append_and_high (0b0111#4 ++ sr.toBits ++ baseR.toBits) (0b1111000000#10) offset6).trans
    (by cases sr <;> cases baseR <;> rfl)

theorem EncodesInRow.rti : EncodesInRow.Statement .rti := rfl

theorem EncodesInRow.trap (trapvect8 : BitVec 8) : EncodesInRow.Statement (.trap trapvect8) :=
  append_and_high (0b1111#4 ++ 0b0000#4) (0b11110000#8) trapvect8

theorem EncodesInRow.unassigned (low12 : BitVec 12) : EncodesInRow.Statement (.unassigned low12) :=
  append_and_high (0b1101#4) (0b1111#4) low12

end Sys2Proof.Laws
end

