-- ==== Sys2Proof/Tests/Slice0.lean ====
section
/-!
SUPPORT. The model's own tests: the smoke of the well-formedness check, decoded words, one-step vectors of
95_test_vectors.md (each theorem names its vector), and a witness that meets the hypotheses of each statement that has
some.
-/

namespace Sys2Proof.Tests

open Sys2Proof.Machine

/-! ### Well-formedness -/

/-- JMP through R7 is spelt RET, so the check refuses it (log 14). -/
theorem test_jmp_r7_refused : Instr.wf (.jmp .r7) = false := by decide

theorem test_ret_accepted : Instr.wf .ret = true ∧ Instr.wf (.jmp .r6) = true := by decide

/-! ### One hand-written word for each constructor (encodings of 30_encoding.md; words of 95_test_vectors.md) -/

/-- V-OP-1, L1-3, V-OP-10, V-OP-11, V-OP-14. -/
theorem test_decode_operate :
    decode 0x1042 = .addReg .r0 .r1 .r2 ∧ decode 0x1063 = .addImm .r0 .r1 3 ∧
    decode 0x54C4 = .andReg .r2 .r3 .r4 ∧ decode 0x5020 = .andImm .r0 .r0 0 ∧
    decode 0x92BF = .not .r1 .r2 := by decide

/-- V-CT-3, V-CT-10, V-CT-11, V-CT-13, V-CT-15. -/
theorem test_decode_control :
    decode 0x0BFF = .br true false true 0x1FF ∧ decode 0xC080 = .jmp .r2 ∧ decode 0xC1C0 = .ret ∧
    decode 0x4C00 = .jsr 0x400 ∧ decode 0x40C0 = .jsrr .r3 := by decide

/-- V-LS-1, V-LS-3, V-LS-4, V-LS-6, V-LS-8, V-LS-9, V-LS-10. -/
theorem test_decode_load_store :
    decode 0x2402 = .ld .r2 2 ∧ decode 0xA604 = .ldi .r3 4 ∧ decode 0x647F = .ldr .r2 .r1 0x3F ∧
    decode 0xE1FF = .lea .r0 0x1FF ∧ decode 0x31FE = .st .r0 0x1FE ∧ decode 0xB604 = .sti .r3 4 ∧
    decode 0x7441 = .str .r2 .r1 1 := by decide

/-- V-SY-2, V-SY-18, V-SY-19. -/
theorem test_decode_system :
    decode 0x8FFF = .rti ∧ decode 0xFF25 = .trap 0x25 ∧ decode 0xD123 = .unassigned 0x123 := by decide

/-! ### One step -/

/-- A state at `pc` with some registers and some words of memory set, all else as at reset. -/
def build (pc : Word) (rs : List (Reg × Word)) (ms : List (Word × Word)) : State :=
  let s := rs.foldl (fun s p => s.setReg p.1 p.2) (State.reset.setPc pc)
  ms.foldl (fun s p => memWrite p.1 p.2 s) s

/-- A field of the next state of a step. -/
def field {α : Type} (s : State) (f : State → α) : Option α :=
  match step s with
  | .next t => some (f t)
  | .fault _ => none
  | .refused _ => none

/-- V-OP-9: DR = SR1 = SR2, the carry discarded. -/
theorem test_add_reg : field (build 0x3000 [(.r2, 0x8000)] [(0x3000, 0x1482)]) (fun t => (t.reg .r2, t.psr)) =
    some (0x0000, 0x0002) := by decide

/-- V-OP-5: imm5 = 0x10 is -16. -/
theorem test_add_imm : field (build 0x3000 [(.r1, 0x0010)] [(0x3000, 0x1070)]) (fun t => (t.reg .r0, t.psr)) =
    some (0x0000, 0x0002) := by decide

/-- V-OP-10. -/
theorem test_and_reg : field (build 0x3000 [(.r3, 0xF0F0), (.r4, 0xFF00)] [(0x3000, 0x54C4)])
    (fun t => (t.reg .r2, t.psr)) = some (0xF000, 0x0004) := by decide

/-- V-OP-12: imm5 = 0x1F is 0xFFFF. -/
theorem test_and_imm : field (build 0x3000 [(.r1, 0x8001)] [(0x3000, 0x527F)]) (fun t => (t.reg .r1, t.psr)) =
    some (0x8001, 0x0004) := by decide

/-- V-OP-16. -/
theorem test_not : field (build 0x3000 [(.r0, 0x8000)] [(0x3000, 0x903F)]) (fun t => (t.reg .r0, t.psr)) =
    some (0x7FFF, 0x0001) := by decide

/-- V-CT-7: BRn #-256 taken. -/
theorem test_br_taken : field ((build 0x3000 [] [(0x3000, 0x0900)]).setPsr 0x0004) (fun t => (t.pc, t.psr)) =
    some (0x2F01, 0x0004) := by decide

/-- V-CT-2: BRz not taken under P. -/
theorem test_br_not_taken : field ((build 0x3000 [] [(0x3000, 0x0405)]).setPsr 0x0001) (fun t => (t.pc, t.psr)) =
    some (0x3001, 0x0001) := by decide

/-- V-CT-10. -/
theorem test_jmp : field (build 0x3000 [(.r2, 0x4000)] [(0x3000, 0xC080)]) (fun t => (t.pc, t.reg .r7)) =
    some (0x4000, 0x0000) := by decide

/-- V-CT-11. -/
theorem test_ret : field (build 0x3000 [(.r7, 0x3456)] [(0x3000, 0xC1C0)]) (fun t => (t.pc, t.reg .r7)) =
    some (0x3456, 0x3456) := by decide

/-- V-CT-13: PCoffset11 = 0x400 is -1024. -/
theorem test_jsr : field (build 0x3000 [] [(0x3000, 0x4C00)]) (fun t => (t.pc, t.reg .r7)) =
    some (0x2C01, 0x3001) := by decide

/-- V-CT-15, V-CT-16: JSRR R3, and JSRR R7 in the order of decision D14. -/
theorem test_jsrr : field (build 0x3000 [(.r3, 0x5000)] [(0x3000, 0x40C0)]) (fun t => (t.pc, t.reg .r7)) =
      some (0x5000, 0x3001) ∧
    field (build 0x3000 [(.r7, 0x5000)] [(0x3000, 0x41C0)]) (fun t => (t.pc, t.reg .r7)) =
      some (0x3001, 0x3001) := by decide

/-- V-LS-2: a load of zero over an old value. -/
theorem test_ld : field (build 0x3000 [(.r2, 0x1111)] [(0x3000, 0x2500)]) (fun t => (t.reg .r2, t.psr)) =
    some (0x0000, 0x0002) := by decide

/-- V-LS-3. -/
theorem test_ldi : field (build 0x3000 [] [(0x3000, 0xA604), (0x3005, 0x4000), (0x4000, 0x0042)])
    (fun t => (t.reg .r3, t.psr)) = some (0x0042, 0x0001) := by decide

/-- V-DV-3: the read of the data register ends the run, and nothing is written. -/
theorem test_ldi_end_of_input : field (build 0x3000 [(.r0, 0x1111)] [(0x3000, 0xA004), (0x3005, 0xFE02)])
    (fun t => (t.reg .r0, t.psr, t.pc, t.status)) =
      some (0x1111, 0x0002, 0x3001, .halted .endOfInput) := by decide

/-- V-LS-5: the address wraps. -/
theorem test_ldr : field (build 0x3000 [(.r1, 0x0010)] [(0x3000, 0x6460), (0xFFF0, 0x1234)])
    (fun t => (t.reg .r2, t.psr)) = some (0x1234, 0x0001) := by decide

/-- V-LS-7: LEA sets the condition codes. -/
theorem test_lea : field (build 0x7FFF [] [(0x7FFF, 0xE000)]) (fun t => (t.reg .r0, t.psr)) =
    some (0x8000, 0x0004) := by decide

/-- V-LS-12: a store leaves psr. -/
theorem test_st : field ((build 0x3000 [(.r0, 0x1234)] [(0x3000, 0x3001)]).setPsr 0x0004)
    (fun t => (t.mem.read 0x3002, t.psr)) = some (0x1234, 0x0004) := by decide

/-- V-LS-9. -/
theorem test_sti : field (build 0x3000 [(.r3, 0x00AA)] [(0x3000, 0xB604), (0x3005, 0x4000)])
    (fun t => t.mem) = some [(0x3000, 0xB604), (0x3005, 0x4000), (0x4000, 0x00AA)] := by decide

/-- V-LS-11: the value of the register, not its number. -/
theorem test_str : field (build 0x3000 [(.r1, 0x4000)] [(0x3000, 0x7240)]) (fun t => t.mem.read 0x4000) =
    some 0x4000 := by decide

/-- V-SY-2, V-DV-10: RTI, and a fetch of the status register. -/
theorem test_rti : field (build 0x3000 [] [(0x3000, 0x8FFF)]) (fun t => (t.pc, t.status)) =
      some (0x3001, .fatal .rtiUnsupported) ∧
    field (build 0xFE00 [] []) (fun t => (t.pc, t.status)) = some (0xFE01, .fatal .rtiUnsupported) := by decide

/-- V-SY-9: PUTS scans through the device intercept (decision D12). -/
theorem test_trap_puts : field (build 0x3000 [(.r0, 0xFDFF)] [(0x3000, 0xF022), (0xFDFF, 0x0041)])
    (fun t => (t.output, t.reg .r0, t.reg .r7)) = some ([0x41, 0x00], 0xFDFF, 0x3001) := by decide

/-- V-SY-12: PUTSP, low byte first, a zero high byte not emitted (decision D11). -/
theorem test_trap_putsp : field (build 0x3000 [(.r0, 0x5000)] [(0x3000, 0xF024), (0x5000, 0x4241), (0x5001, 0x0043)])
    (fun t => t.output) = some [0x41, 0x42, 0x43] := by decide

/-- V-SY-19. -/
theorem test_unassigned : field (build 0x3000 [] [(0x3000, 0xD123)]) (fun t => (t.reports, t.status, t.pc)) =
    some ([(0x3000, 0xD123)], .running, 0x3001) := by decide

/-- V-DV-12: a fetch the host ends leaves pc. -/
theorem test_fetch_end_of_input : field (build 0xFE02 [] []) (fun t => (t.pc, t.status)) =
    some (0xFE02, .halted .endOfInput) := by decide

/-- V-RS-2, V-RS-3, V-RS-4: two big-endian words; too many; an odd count. -/
theorem test_load_image :
    (match boot (some [0x40, 0x00, 0x12, 0x34, 0xAB, 0xCD]) with
      | .next t => some (t.mem, t.pc)
      | .fault _ => none
      | .refused _ => none) = some ([(0x4000, 0x1234), (0x4001, 0xABCD)], 0x4000) ∧
    (match boot (some [0xFF, 0xFF, 0x00, 0x01, 0x00, 0x02]) with | .refused r => some r | _ => none) =
      some .imageOverflow ∧
    (match boot (some [0x30, 0x00, 0xF0]) with | .refused r => some r | _ => none) = some .imageOddLength := by decide

/-- The fetch placed at reset is the instruction run, an unknown vector here (V-SY-16). -/
theorem test_withFetchWord : field (State.reset.withFetchWord 16 0xF000) (fun t => (t.reg .r7, t.status)) =
    some (0x3001, .fatal (.unknownTrapVector 0x00)) := by decide

/-! ### Witnesses: states and operands that meet the hypotheses of the statements, at boundary values -/

/-- A state whose host answers so once its characters are used up. -/
def hosted (after : InputAfter) (s : State) : State := { s with inputAfter := after }

/-- A state whose LD, LDI and STI with offset -1 read the data register. -/
def atData (after : InputAfter) : State := hosted after (build 0xFE03 [(.r1, 0xFE02)] [])

theorem atData_reads (after : InputAfter) : ReadsHost 0xFE02 (atData after) :=
  ⟨show (0xFE02 : Word) ≠ 0xFE00 by decide, rfl⟩

theorem atData_pc (after : InputAfter) : (atData after).pc = 0xFE03 := rfl

theorem atData_r1 (after : InputAfter) : (atData after).reg .r1 = 0xFE02 := rfl

theorem witness_DecodeEncodeAgree : Instr.wf (.jmp .r6) = true ∧ Instr.wf (.unassigned 0xFFF) = true := by decide

theorem witness_IgnoredBitsAreIgnored :
    (0x1FDF : Word).extractLsb' 12 4 = 0x1#4 ∧ (0x1FDF : Word).getLsbD 5 = false ∧
    (0x5018 : Word).extractLsb' 12 4 = 0x5#4 ∧ (0x5018 : Word).getLsbD 5 = false ∧
    (0x9000 : Word).extractLsb' 12 4 = 0x9#4 ∧ (0xCFFF : Word).extractLsb' 12 4 = 0xC#4 ∧
    (0x47FF : Word).extractLsb' 12 4 = 0x4#4 ∧ (0x47FF : Word).getLsbD 11 = false ∧
    (0x8FFF : Word).extractLsb' 12 4 = 0x8#4 ∧ (0xFF25 : Word).extractLsb' 12 4 = 0xF#4 := by decide

theorem witness_CanonicalMemoriesAreExtensional :
    Memory.wf [(0x0000, 1), (0xFFFF, 1)] = true ∧
    ∀ a : Word, Memory.read [(0x0000, 1), (0xFFFF, 1)] a = Memory.read [(0x0000, 1), (0xFFFF, 1)] a :=
  ⟨by decide, fun _ => rfl⟩

theorem witness_MemReadFollowsTheIntercept :
    (0xFE00 : Word) = State.reset.cfg.devStatusAddr ∧
    (0xFFFF : Word) ≠ State.reset.cfg.devStatusAddr ∧ (0xFFFF : Word) ≠ State.reset.cfg.devDataAddr ∧
    ReadsHost 0xFE02 State.reset ∧
    nextAnswer (hosted (.forever 0xFFFF) State.reset) = some (.char 0xFFFF) ∧
    nextAnswer (hosted .endOfInput State.reset) = some .endOfInput ∧
    nextAnswer (hosted .ioFailure State.reset) = some .ioFailure ∧
    nextAnswer (hosted .never State.reset) = none :=
  ⟨by decide, by decide, by decide, ⟨by decide, by decide⟩, by decide, by decide, by decide, by decide⟩

theorem witness_DeviceStoreIsNeverReadBack :
    State.reset.cfg.wf = true ∧ (build 0xFFFF [(.r7, 0xFE00)] []).reg .r7 = State.reset.cfg.devStatusAddr ∧
    (atData (.forever 0)).reg .r1 = (atData (.forever 0)).cfg.devDataAddr ∧
    nextAnswer (atData (.forever 0)) = some (.char 0) := by decide

theorem witness_StoredWordIsExecutedNext :
    (build 0xFFFF [] []).mem.wf = true ∧ (build 0xFFFF [] []).status = .running ∧
    (build 0xFFFF [] []).pc ≠ State.reset.cfg.devStatusAddr ∧
    (build 0xFFFF [] []).pc ≠ State.reset.cfg.devDataAddr := by decide

/-- Two memories that differ in the status register's backing cell alone. -/
theorem agree_backing (s : State) (hc : s.cfg = defaultConfig) (hm : s.mem = []) :
    AgreeOffDevices s (memWrite 0xFE00 1 s) :=
  ⟨rfl, rfl, rfl, rfl, rfl, ⟨rfl, rfl, rfl, rfl⟩, fun a h1 _ =>
    Memory.read_write_ne (by rw [hm]; rfl) 1 (by rw [hc] at h1; exact h1)⟩

theorem witness_BackingCellsAreUnobservable :
    State.reset.mem.wf = true ∧ (memWrite 0xFE00 1 State.reset).mem.wf = true ∧
    AgreeOffDevices State.reset (memWrite 0xFE00 1 State.reset) ∧
    (∃ t, step State.reset = .next t) ∧
    AgreeOffDevices (hosted .never (build 0xFE02 [] [])) (memWrite 0xFE00 1 (hosted .never (build 0xFE02 [] []))) ∧
    step (hosted .never (build 0xFE02 [] [])) = .fault .inputNeverAnswered :=
  ⟨rfl, by decide, agree_backing _ rfl rfl, ⟨_, rfl⟩, agree_backing _ rfl rfl, rfl⟩

theorem witness_SetccCallers :
    State.reset.status = .running ∧
    (∃ t, exec (.lea .r7 0x1FF) State.reset = .next t ∧ t.status = .running) ∧
    (∃ t, exec (.ld .r0 0x1FF) (atData .endOfInput) = .next t ∧ t.status ≠ .running) ∧
    (∃ t, exec (.trap 0x25) State.reset = .next t) :=
  ⟨rfl, ⟨_, rfl, rfl⟩, ⟨_, rfl, by decide⟩, ⟨_, rfl⟩⟩

/-- The words of each family's first clause: every other bit of the word set. -/
theorem witness_operate_words :
    (0x1FDF : Word).extractLsb' 12 4 = 0b0001#4 ∧ (0x1FDF : Word).getLsbD 5 = false ∧
    (0x1FFF : Word).extractLsb' 12 4 = 0b0001#4 ∧ (0x1FFF : Word).getLsbD 5 = true ∧
    (0x5FDF : Word).extractLsb' 12 4 = 0b0101#4 ∧ (0x5FDF : Word).getLsbD 5 = false ∧
    (0x5FFF : Word).extractLsb' 12 4 = 0b0101#4 ∧ (0x5FFF : Word).getLsbD 5 = true ∧
    (0x9FFF : Word).extractLsb' 12 4 = 0b1001#4 := by decide

theorem witness_control_words :
    (0x0FFF : Word).extractLsb' 12 4 = 0b0000#4 ∧
    (0xCFBF : Word).extractLsb' 12 4 = 0b1100#4 ∧ (0xCFBF : Word).extractLsb' 6 3 ≠ 0b111#3 ∧
    (0xCFFF : Word).extractLsb' 12 4 = 0b1100#4 ∧ (0xCFFF : Word).extractLsb' 6 3 = 0b111#3 ∧
    (0x4FFF : Word).extractLsb' 12 4 = 0b0100#4 ∧ (0x4FFF : Word).getLsbD 11 = true ∧
    (0x47FF : Word).extractLsb' 12 4 = 0b0100#4 ∧ (0x47FF : Word).getLsbD 11 = false := by decide

theorem witness_load_store_words :
    (0x2FFF : Word).extractLsb' 12 4 = 0b0010#4 ∧ (0xAFFF : Word).extractLsb' 12 4 = 0b1010#4 ∧
    (0x6FFF : Word).extractLsb' 12 4 = 0b0110#4 ∧ (0xEFFF : Word).extractLsb' 12 4 = 0b1110#4 ∧
    (0x3FFF : Word).extractLsb' 12 4 = 0b0011#4 ∧ (0xBFFF : Word).extractLsb' 12 4 = 0b1011#4 ∧
    (0x7FFF : Word).extractLsb' 12 4 = 0b0111#4 := by decide

theorem witness_system_words :
    (0x8FFF : Word).extractLsb' 12 4 = 0b1000#4 ∧ (0xFFFF : Word).extractLsb' 12 4 = 0b1111#4 ∧
    (0xDFFF : Word).extractLsb' 12 4 = 0b1101#4 := by decide

theorem witness_FormsOfAddAndAndAgree :
    (build 0x3000 [(.r2, 0xFFF0)] []).reg .r2 = BitVec.ofInt 16 (0x10 : BitVec 5).toInt := by decide

theorem witness_BranchTakenOnItsConditions : psrOneHot 0xFFFC = true := by decide

/-- The addresses and answers of LD's clauses: plain storage at 0xFFFF, and the data register with each answer. -/
theorem witness_LdLoadsPcRelative :
    (0xFFFF : Word) = (build 0 [] []).pc + BitVec.ofInt 16 (0x1FF : BitVec 9).toInt ∧
    ¬ ReadsHost 0xFFFF (build 0 [] []) ∧
    (∀ after, (0xFE02 : Word) = (atData after).pc + BitVec.ofInt 16 (0x1FF : BitVec 9).toInt ∧
      ReadsHost 0xFE02 (atData after)) ∧
    nextAnswer (atData (.forever 0xFFFF)) = some (.char 0xFFFF) ∧
    nextAnswer (atData .endOfInput) = some .endOfInput ∧ nextAnswer (atData .ioFailure) = some .ioFailure :=
  ⟨by decide, fun h => absurd h.2 (by decide), fun a => ⟨by rw [atData_pc]; decide, atData_reads a⟩, by decide, by decide, by decide⟩

/-- The same for LDR, through a base register. -/
theorem witness_LdrLoadsBasePlusOffset :
    (0xFFFF : Word) = (build 0 [] []).reg .r1 + BitVec.ofInt 16 (0x3F : BitVec 6).toInt ∧
    ¬ ReadsHost 0xFFFF (build 0 [] []) ∧
    (∀ after, (0xFE02 : Word) = (atData after).reg .r1 + BitVec.ofInt 16 (0 : BitVec 6).toInt ∧
      ReadsHost 0xFE02 (atData after)) :=
  ⟨by decide, fun h => absurd h.2 (by decide), fun a => ⟨by rw [atData_r1]; decide, atData_reads a⟩⟩

/-- A pointer to plain storage; a pointer to the data register; a pointer that the data register answers. -/
theorem witness_LdiLoadsThroughPointer :
    (¬ ReadsHost 0xFFFF (build 0 [] []) ∧ ¬ ReadsHost (quietWord 0xFFFF (build 0 [] [])) (build 0 [] [])) ∧
    (ReadsTo 0xFFFF (hosted (.forever 7) (build 0 [] [(0xFFFF, 0xFE02)])) 0xFE02
        (hosted (.forever 7) (build 0 [] [(0xFFFF, 0xFE02)])) ∧
      (∃ s2, ReadsTo 0xFE02 (hosted (.forever 7) (build 0 [] [(0xFFFF, 0xFE02)])) 7 s2) ∧
      ReadsHost 0xFE02 (hosted (.forever 7) (build 0 [] [(0xFFFF, 0xFE02)]))) ∧
    (∃ s1, ReadsTo 0xFE02 (atData (.forever 0xFE02)) 0xFE02 s1 ∧ ReadsHost 0xFE02 s1) :=
  ⟨⟨fun h => absurd h.2 (by decide), fun h => absurd h.2 (by decide)⟩,
    ⟨.inl ⟨fun h => absurd h.2 (by decide), by decide, rfl⟩,
      ⟨_, .inr ⟨⟨by decide, by decide⟩, by decide, consumeInput_portsOnly _ _, rfl, tookInput_consume _ _⟩⟩,
      by decide, by decide⟩,
    ⟨_, .inr ⟨⟨by decide, by decide⟩, by decide, consumeInput_portsOnly _ _, rfl, tookInput_consume _ _⟩,
      by decide, by decide⟩⟩

/-- STI reads its pointer where LD reads its word; its memory is canonical. -/
theorem witness_StiStoresThroughPointer :
    (build 0 [] [(0xFFFF, 0xFE02)]).mem.wf = true ∧ ¬ ReadsHost 0xFFFF (build 0 [] [(0xFFFF, 0xFE02)]) ∧
    (∀ after, (atData after).mem.wf = true) ∧ ReadsHost 0xFE02 (atData (.forever 0)) ∧
    nextAnswer (atData (.forever 0)) = some (.char 0) :=
  ⟨by decide, fun h => absurd h.2 (by decide), fun _ => by rfl, ⟨by decide, by decide⟩, by decide⟩

theorem witness_StStoresPcRelative : (build 0xFFFF [(.r0, 1)] [(0xFFFF, 1)]).mem.wf = true := by decide

theorem witness_StrStoresBasePlusOffset : (build 0xFFFF [(.r1, 0xFE00)] [(0, 1)]).mem.wf = true := by decide

theorem witness_EveryTrapLinks : (∃ t, exec (.trap 0x20) State.reset = .next t) ∧
    (∃ t, exec (.trap 0xFF) State.reset = .next t) := ⟨⟨_, rfl⟩, ⟨_, rfl⟩⟩

theorem witness_GetcReadsOneCharacter :
    nextAnswer (State.reset.setInputChars [0xFFFF]) = some (.char 0xFFFF) ∧
    nextAnswer State.reset = some .endOfInput ∧ nextAnswer (hosted .ioFailure State.reset) = some .ioFailure := by
  decide

theorem witness_OutEmitsLowByte :
    AcceptsOutput 1 (State.reset.setOutputFailsAfter (some 1)) ∧
    (State.reset.setOutputFailsAfter (some 0)).outputFailsAfter = some 0 :=
  ⟨fun k h => by cases h; decide, rfl⟩

/-- R0 at a string of one word at 0xFFFF, its zero word at 0x0000, and a host that accepts `n` characters and no more. -/
def stringState (n : Nat) : State := (build 0x3000 [(.r0, 0xFFFF)] [(0xFFFF, 0x4142)]).setOutputFailsAfter (some n)

theorem stringState_words (n : Nat) : WordsAt ((stringState n).reg .r0) ([0x4142] ++ [0]) (stringState n) := by
  intro i h
  have hi : i = 0 ∨ i = 1 := by simp at h; omega
  have hr : (stringState n).reg .r0 = 0xFFFF := rfl
  have hc : (stringState n).cfg = defaultConfig := rfl
  have hm : (stringState n).mem = [(0xFFFF, 0x4142)] := rfl
  rw [hr, hc, hm]
  rcases hi with rfl | rfl
  · exact ⟨by decide, by decide, show Memory.read [(0xFFFF, 0x4142)] (0xFFFF + 0#16) = 0x4142 by decide⟩
  · exact ⟨by decide, by decide, show Memory.read [(0xFFFF, 0x4142)] (0xFFFF + 1#16) = 0 by decide⟩

theorem stringState_accepts (n : Nat) : AcceptsOutput n (stringState n) := by
  intro k h
  have ho : (stringState n).outputFailsAfter = some n := rfl
  rw [ho] at h
  exact le_of_eq (Option.some.inj h)

theorem witness_PutsEmitsTheString : (∀ w ∈ [(0x4142 : Word)], w ≠ 0) ∧
    WordsAt ((stringState 1).reg .r0) ([0x4142] ++ [0]) (stringState 1) ∧
    AcceptsOutput [(0x4142 : Word)].length (stringState 1) :=
  ⟨by simp, stringState_words 1, stringState_accepts 1⟩

theorem witness_PutspEmitsPackedString : (∀ w ∈ [(0x4142 : Word)], w ≠ 0) ∧
    WordsAt ((stringState 2).reg .r0) ([0x4142] ++ [0]) (stringState 2) ∧
    AcceptsOutput ([(0x4142 : Word)].flatMap packedChars).length (stringState 2) :=
  ⟨by simp, stringState_words 2, stringState_accepts 2⟩

theorem witness_BoundedScansAreTheSpecsLoops :
    ∃ t, ScanRuns packedChars (State.reset.reg .r0) (State.reset.setReg .r7 State.reset.pc) t :=
  ⟨_, .zeroWord rfl⟩

/-- IN with a host that accepts the prompt and the echo, the prompt and no more, and one character less. -/
theorem witness_InPromptsReadsAndEchoes :
    AcceptsOutput (State.reset.cfg.inPrompt.length + 1) (State.reset.setOutputFailsAfter (some 20)) ∧
    AcceptsOutput State.reset.cfg.inPrompt.length (State.reset.setOutputFailsAfter (some 19)) ∧
    (State.reset.setOutputFailsAfter (some 19)).outputFailsAfter = some State.reset.cfg.inPrompt.length ∧
    nextAnswer (hosted (.forever 1) (State.reset.setOutputFailsAfter (some 19))) = some (.char 1) ∧
    nextAnswer (State.reset.setOutputFailsAfter (some 19)) = some .endOfInput ∧
    nextAnswer (hosted .ioFailure (State.reset.setOutputFailsAfter (some 19))) = some .ioFailure ∧
    (State.reset.setOutputFailsAfter (some 18)).outputFailsAfter = some 18 ∧
    18 < (State.reset.setOutputFailsAfter (some 18)).cfg.inPrompt.length :=
  ⟨fun k h => by cases h; decide, fun k h => by cases h; decide, by decide, by decide, by decide, by decide, by decide,
    by decide⟩

theorem witness_UnknownVectorIsFatal :
    ((0x1F : BitVec 8).toNat < 0x20 ∨ 0x25 < (0x1F : BitVec 8).toNat) ∧
    ((0x26 : BitVec 8).toNat < 0x20 ∨ 0x25 < (0x26 : BitVec 8).toNat) := by decide

/-- A host that never answers, met by each read of a data register: with offset -1, through the base register R1, through
the pointer at 0xFFFF. -/
theorem witness_UnansweredInputHoldsTheCore :
    nextAnswer (atData .never) = none ∧ AcceptsOutput (atData .never).cfg.inPrompt.length (atData .never) ∧
    ReadsHost (pcRel9 0x1FF (atData .never)) (atData .never) ∧
    ReadsHost (baseOff6 .r1 0 (atData .never)) (atData .never) ∧
    ReadsTo (pcRel9 0x1FF (hosted .never (build 0 [] [(0xFFFF, 0xFE02)])))
      (hosted .never (build 0 [] [(0xFFFF, 0xFE02)])) 0xFE02 (hosted .never (build 0 [] [(0xFFFF, 0xFE02)])) ∧
    ReadsHost 0xFE02 (hosted .never (build 0 [] [(0xFFFF, 0xFE02)])) ∧
    nextAnswer (hosted .never (build 0 [] [(0xFFFF, 0xFE02)])) = none :=
  ⟨by decide, (fun k h => nomatch h), ⟨by decide, by decide⟩, ⟨by decide, by decide⟩,
    .inl ⟨fun h => absurd h.2 (by decide), by decide, rfl⟩, ⟨by decide, by decide⟩, by decide⟩

/-- A scan from 0xFE01 that emits one character and then holds at the data register. -/
theorem witness_ScanHolds : ScanHolds packedChars 0xFE01 (hosted .never (build 0x3000 [] [(0xFE01, 0x0041)])) :=
  .goOn (memRead_quiet fun h => absurd h.2 (by decide)) (by decide) rfl
    (.unanswered ⟨by decide, by decide⟩ (by decide))

/-- The writers' statements: an instruction of each kind that completes, and a pointer read that answers. -/
theorem witness_writers :
    State.reset.mem.wf = true ∧ writesPc (.lea .r0 0) = false ∧ writesMem (.lea .r0 0) = false ∧
    (∃ t, exec (.lea .r0 0) State.reset = .next t) ∧ (∃ t, exec (.st .r0 0) State.reset = .next t) ∧
    (∃ t, exec (.str .r0 .r1 0) State.reset = .next t) ∧ (∃ t, exec (.sti .r0 0) State.reset = .next t) ∧
    ReadsTo (pcRel9 0 State.reset) State.reset 0 State.reset :=
  ⟨rfl, rfl, rfl, ⟨_, rfl⟩, ⟨_, rfl⟩, ⟨_, rfl⟩, ⟨_, rfl⟩, .inl ⟨fun h => absurd h.2 (by decide), by decide, rfl⟩⟩

theorem witness_OnlyTheseEndARun :
    (∃ t, exec (.trap 0x25) State.reset = .next t ∧ t.status ≠ State.reset.status) ∧
    (∃ t, exec (.sti .r0 0x1FF) (atData .ioFailure) = .next t ∧ t.status ≠ (atData .ioFailure).status) :=
  ⟨⟨_, rfl, by decide⟩, ⟨_, rfl, by decide⟩⟩

theorem witness_OutputOnlyThroughTrap :
    (∃ t, exec (.unassigned 0) State.reset = .next t) ∧ (∃ t, exec (.trap 0x21) State.reset = .next t) ∧
    (∀ v, Instr.unassigned 0 ≠ .trap v) ∧ (∀ x, Instr.trap 0x21 ≠ .unassigned x) :=
  ⟨⟨_, rfl⟩, ⟨_, rfl⟩, (fun _ h => nomatch h), (fun _ h => nomatch h)⟩

theorem witness_StepRunsTheDecodedInstruction :
    (build 0xFE01 [] []).status = .running ∧ (build 0xFE01 [] []).pc ≠ State.reset.cfg.devStatusAddr ∧
    (build 0xFE01 [] []).pc ≠ State.reset.cfg.devDataAddr := by decide

theorem witness_ZeroWordIsANoOp :
    (build 0xFFFF [] []).status = .running ∧ (build 0xFFFF [] []).pc ≠ State.reset.cfg.devStatusAddr ∧
    (build 0xFFFF [] []).pc ≠ State.reset.cfg.devDataAddr ∧
    (build 0xFFFF [] []).mem.read (build 0xFFFF [] []).pc = 0 := by decide

theorem witness_StepFetchesThroughTheIntercept :
    (build 0xFE00 [] []).status = .running ∧ (build 0xFE00 [] []).pc = State.reset.cfg.devStatusAddr ∧
    (∀ after, (hosted after (build 0xFE02 [] [])).status = .running ∧
      ReadsHost (hosted after (build 0xFE02 [] [])).pc (hosted after (build 0xFE02 [] []))) ∧
    nextAnswer (hosted (.forever 0xD000) (build 0xFE02 [] [])) = some (.char 0xD000) ∧
    nextAnswer (hosted .never (build 0xFE02 [] [])) = none :=
  ⟨by decide, by decide, fun _ => ⟨rfl, show (0xFE02 : Word) ≠ 0xFE00 by decide, rfl⟩, by decide, by decide⟩

theorem witness_TerminalStatesAreFinal : State.Terminal (State.reset.setStatus (.halted .haltTrap)) := by decide

theorem witness_StepKeepsTheInvariant : State.reset.Inv ∧ ∃ t, step State.reset = .next t :=
  ⟨⟨rfl, rfl, rfl⟩, ⟨_, rfl⟩⟩

theorem witness_StepCompletesWhenInputEnds :
    State.reset.cfg.wf = true ∧ State.reset.inputAfter = .endOfInput ∧
    (hosted .ioFailure State.reset).inputAfter = .ioFailure := by decide

theorem witness_LoadPlacesTheImage :
    State.reset.mem.wf = true ∧ State.reset.status = .running ∧
    (0xFFFF : Word).toNat + [(1 : Word)].length ≤ 0x10000 := by decide

theorem witness_BadImagesAreRefused :
    State.reset.status = .running ∧ [(0x30 : Byte)].length < 2 ∧ 2 ≤ [(0x30 : Byte), 0x00, 0xF0].length ∧
    [(0x30 : Byte), 0x00, 0xF0].length % 2 = 1 ∧
    0x10000 < (0xFFFF : Word).toNat + [(1 : Word), 2].length := by decide

/-- A memory without a zero word: 1 at every address. -/
def ones : Memory := (List.range' 0 0x10000).map fun a => (a, 1)

theorem ones_read (a : Word) : Memory.read ones a = 1 := by
  have key : ∀ (n lo x : Nat), lo ≤ x → x < lo + n → Memory.lookup ((List.range' lo n).map fun a => (a, 1)) x = 1 := by
    intro n
    induction n with
    | zero => intro lo x h1 h2; omega
    | succ n ih =>
      intro lo x h1 h2
      rw [List.range'_succ, List.map_cons, Memory.lookup]
      split
      · rfl
      · exact ih (lo + 1) x (by omega) (by omega)
  exact key 0x10000 0 a.toNat (Nat.zero_le _) (by have := a.isLt; omega)

/-- A scan over such a memory, with a host that answers 1 for ever and never fails, meets no end. -/
theorem scan_ones (n : Nat) (a : Word) (s : State) (hm : s.mem = ones) (hc : s.cfg = defaultConfig)
    (hi : s.inputChars = [] ∧ s.inputAfter = .forever 1) (ho : s.outputFailsAfter = none) :
    scan putsChars n a s = .fault .scanNeverEnds := by
  induction n generalizing a s with
  | zero => rfl
  | succ n ih =>
    have hr : ∃ w s1, memRead a s = .value w s1 ∧ w ≠ 0 ∧ s1.mem = ones ∧ s1.cfg = defaultConfig ∧
        (s1.inputChars = [] ∧ s1.inputAfter = .forever 1) ∧ s1.outputFailsAfter = none := by
      by_cases h : ReadsHost a s
      · have hn : nextAnswer s = some (.char 1) := by unfold nextAnswer; rw [hi.1, hi.2]
        refine ⟨1, _, (memRead_data h).trans (inputRead_value.mpr ⟨hn, rfl⟩), by decide, hm, hc, ⟨?_, hi.2⟩, ho⟩
        show s.inputChars.tail = []
        rw [hi.1]; rfl
      · refine ⟨_, s, memRead_quiet h, ?_, hm, hc, hi, ho⟩
        unfold quietWord
        split
        · rw [hc]; decide
        · rw [hm, ones_read]; decide
    obtain ⟨w, s1, hr, hw, hm1, hc1, hi1, ho1⟩ := hr
    rw [scan_succ, hr, andThen_value, if_neg hw]
    have he : emitAll (putsChars w) s1 = .value () (s1.record (.output (lowByte w) .ok)) := by
      unfold putsChars emitAll emit; rw [ho1]; rfl
    rw [he, andThen_value]
    exact ih (a + 1) _ hm1 hc1 hi1 ho1

theorem witness_HangNeedsMemoryWithoutZero :
    exec (.trap 0x22) (hosted (.forever 1) (State.reset.setMem ones)) = .fault .scanNeverEnds :=
  scan_ones _ _ _ rfl rfl ⟨rfl, rfl⟩ rfl

end Sys2Proof.Tests
end

section
/-!
PROOFS. The condition codes (10_state.md): what setcc leaves in psr (R37), and which instructions call it (R38).
-/

namespace Sys2Proof.Machine

/-! ### What setcc leaves (R37) -/

/-- The three flags of a value, by its sign (R37). -/
theorem ccBits_eq (v : Word) :
    ccBits v = if v = 0 then 0b010#3 else if v.msb then 0b100#3 else 0b001#3 := by
  by_cases hz : v = 0
  · subst hz; rfl
  · have hne : (v != 0) = true := bne_iff_ne.mpr hz
    have heq : (v == 0) = false := beq_eq_false_iff_ne.mpr hz
    rw [if_neg hz, ccBits, flagN, flagZ, flagP, hne, heq]
    cases v.msb <;> rfl

/-- The low three bits of a psr after setcc are the flags of its value (R36, R37). -/
theorem ccField_psrWithCC (psr v : Word) : ccField (psrWithCC psr v) = ccBits v := by
  unfold ccField psrWithCC
  ext i hi
  interval_cases i <;> simp

/-- Exactly one flag is set after setcc, whatever psr was before (R37, R39). -/
theorem psrOneHot_psrWithCC (psr v : Word) : psrOneHot (psrWithCC psr v) = true := by
  have hcc : (psrWithCC psr v).extractLsb' 0 3 = ccBits v := ccField_psrWithCC psr v
  rw [psrOneHot, hcc, ccBits_eq]
  split
  · rfl
  · split <;> rfl

/-- Settles O11: the flags and bits 15:3 by `setcc_flags`, one-hotness by `psrOneHot_psrWithCC`; setcc writes psr
alone. -/
theorem setccSaysTheSign : Obligations.SetccSaysTheSign := by
  intro v s
  exact ⟨setcc_flags v s, psrOneHot_psrWithCC s.psr v, fun r _ => setcc_reg v s r, setcc_pc v s, fun _ => rfl,
    ⟨rfl, rfl⟩, rfl, rfl, rfl, rfl⟩

/-! ### Who calls setcc (R38) -/

/-- The ports write no flag. -/
theorem PortsOnly.psr_eq {s t : State} (h : PortsOnly s t) : t.psr = s.psr := by
  obtain ⟨-, -, hpsr, -⟩ := h
  exact hpsr

/-- Of the state before, the flags of a value see psr alone. -/
theorem FlagsOf.of_psr_eq {v : Word} {s s1 t : State} (h : FlagsOf v s1 t) (hpsr : s1.psr = s.psr) :
    FlagsOf v s t := by
  unfold FlagsOf at h ⊢
  rwa [← hpsr]

/-- No store is on the list of R38. -/
theorem setccOf_eq_none_of_writesMem {i : Instr} (h : writesMem i = true) : setccOf i = none :=
  match i, h with
  | .st _ _, _ | .sti _ _, _ | .str _ _ _, _ => rfl

/-- An instruction off the list of R38 leaves psr as it was, however it ends. -/
theorem exec_psr_of_setccOf_none {i : Instr} {s t : State} (hi : setccOf i = none) (h : exec i s = .next t) :
    t.psr = s.psr := by
  obtain ⟨hp, -⟩ | ⟨dr, v, s1, hdr, -⟩ | ⟨-, -, v, rfl | ⟨rfl, -⟩⟩ | ⟨a, sr, s1, -, hp, -, rfl⟩ | ⟨v, rfl⟩ :=
    exec_cases h
  case inl => exact hp.psr_eq
  case inr.inl => exact absurd (hi.symm.trans hdr) (Option.some_ne_none dr).symm
  case inr.inr.inl.inl => rfl
  case inr.inr.inl.inr => rfl
  case inr.inr.inr.inl => exact hp.psr_eq
  case inr.inr.inr.inr =>
    obtain ⟨-, hpsr, -⟩ := trap_next v h
    exact hpsr

/-- An instruction on the list of R38 has two ends: the run ended in one of its reads, before the write; or it wrote its
destination with the flags, after reads that used the ports alone. -/
theorem exec_cases_of_setccOf_some {i : Instr} {dr : Reg} {s t : State} (hi : setccOf i = some dr)
    (h : exec i s = .next t) :
    (PortsOnly s t ∧ t.status ≠ .running) ∨
      ∃ v s1, PortsOnly s s1 ∧ s1.status = s.status ∧ t = writeResult dr v s1 := by
  obtain ⟨hp, hst | hnone⟩ | ⟨dr', v, s1, hdr, hp, hst, ht⟩ | ⟨-, hnone, -⟩ | ⟨a, sr, s1, hmem, -⟩ | ⟨v, rfl⟩ :=
    exec_cases h
  case inl.inl => exact .inl ⟨hp, hst⟩
  case inr.inl =>
    obtain rfl : dr' = dr := Option.some.inj (hdr.symm.trans hi)
    exact .inr ⟨v, s1, hp, hst, ht⟩
  case inl.inr => exact absurd (hi.symm.trans hnone) (Option.some_ne_none dr)
  case inr.inr.inl => exact absurd (hi.symm.trans hnone) (Option.some_ne_none dr)
  case inr.inr.inr.inl =>
    exact absurd (hi.symm.trans (setccOf_eq_none_of_writesMem hmem)) (Option.some_ne_none dr)
  case inr.inr.inr.inr => exact absurd hi (Option.some_ne_none dr).symm

/-- A written result carries the flags of the value its destination then holds (R38). -/
theorem writeResult_flagsOf_reg (dr : Reg) (v : Word) (s : State) :
    FlagsOf ((writeResult dr v s).reg dr) s (writeResult dr v s) := by
  obtain ⟨⟨hv, -, hflags, -⟩, -⟩ := writeResult_writesReg dr v s
  rwa [hv]

/-- Settles O12, by the two ends of an instruction on the list of R38, and by every end of one off it. -/
theorem setccCallers : Obligations.SetccCallers := by
  intro i s t hs h
  cases hi : setccOf i with
  | none => exact exec_psr_of_setccOf_none hi h
  | some dr =>
    obtain ⟨hp, hend⟩ | ⟨v, s1, hp, hst, rfl⟩ := exec_cases_of_setccOf_some hi h
    · exact ⟨fun hrun => absurd hrun hend, fun _ => hp.psr_eq⟩
    · have hrun : (writeResult dr v s1).status = .running := hst.trans hs
      exact ⟨fun _ => (writeResult_flagsOf_reg dr v s1).of_psr_eq hp.psr_eq, fun hend => absurd hrun hend⟩

end Sys2Proof.Machine
end

section
/-!
PROOFS. The vectors of TRAP that end the run in every state: HALT (R198) and the vectors without a routine (R199).
-/

namespace Sys2Proof.Machine

/-! ### A run that ends at trap entry -/

/-- When the run ends right after trap entry, x[7] holds the return address (R184), and no other register, no psr, pc,
memory or port is touched. -/
theorem enterTrap_setStatus_endsRun (st : RunStatus) (s : State) :
    EndsRun st [.r7] s ((enterTrap s).setStatus st) ∧ ((enterTrap s).setStatus st).reg .r7 = s.pc ∧
      KeepsPorts s ((enterTrap s).setStatus st) := by
  have hkeep : KeepsRegsBut [.r7] s ((enterTrap s).setStatus st) := fun _ hr =>
    reg_enterTrap_ne s (List.ne_of_not_mem_cons hr)
  exact ⟨⟨rfl, rfl, hkeep, rfl, rfl, fun _ => rfl⟩, reg_enterTrap_same s, rfl, rfl, rfl, rfl⟩

/-! ### The two selections of execTrap -/

/-- HALT is trap entry and then the clean end of the run (R184, R198). -/
theorem exec_trap_halt (s : State) : exec (.trap 0x25) s = .next (terminate .haltTrap (enterTrap s)) := rfl

/-- A vector outside 0x20..0x25 is none of the vectors in that range. -/
theorem trapVector_ne_of_outside {v k : BitVec 8} (hv : v.toNat < 0x20 ∨ 0x25 < v.toNat)
    (hk : 0x20 ≤ k.toNat ∧ k.toNat ≤ 0x25) : v ≠ k := by
  rintro rfl
  omega

/-- A vector outside 0x20..0x25 selects no routine: trap entry, and then the fatal error (R184, R199). -/
theorem exec_trap_unknown {v : BitVec 8} (hv : v.toNat < 0x20 ∨ 0x25 < v.toNat) (s : State) :
    exec (.trap v) s = .next (raiseFatal (.unknownTrapVector v) (enterTrap s)) := by
  change execTrap v s = _
  rw [execTrap]
  iterate 6 rw [if_neg (trapVector_ne_of_outside hv (by decide))]

/-! ### The obligations -/

/-- Settles O39: HALT ends the run right after trap entry. -/
theorem haltEndsTheRun : Obligations.HaltEndsTheRun := fun s =>
  ⟨_, exec_trap_halt s, enterTrap_setStatus_endsRun (.halted .haltTrap) s⟩

/-- Settles O40: a vector that selects no routine ends the run right after trap entry. -/
theorem unknownVectorIsFatal : Obligations.UnknownVectorIsFatal := fun v s hv =>
  ⟨_, exec_trap_unknown hv s, enterTrap_setStatus_endsRun (.fatal (.unknownTrapVector v)) s⟩

end Sys2Proof.Machine
end

section
/-!
PROOFS. The decoder and the encoder (30_encoding.md): the fields of a word, the rows of the opcode map, and
the round trip.
-/

namespace Sys2Proof

/-! ### Parts of a word -/

/-- Masking a word by parts is masking its parts. -/
theorem and_append_eq_append_iff {n k : Nat} (w : BitVec (n + k)) (m c : BitVec n) (m' c' : BitVec k) :
    w &&& (m ++ m') = c ++ c' ↔ w.extractLsb' k n &&& m = c ∧ w.extractLsb' 0 k &&& m' = c' := by
  constructor
  · intro h
    have hhi := congrArg (BitVec.extractLsb' k n) h
    have hlo := congrArg (BitVec.extractLsb' 0 k) h
    rw [BitVec.extractLsb'_and, BitVec.extractLsb'_append_eq_left, BitVec.extractLsb'_append_eq_left] at hhi
    rw [BitVec.extractLsb'_and, BitVec.extractLsb'_append_eq_right, BitVec.extractLsb'_append_eq_right] at hlo
    exact ⟨hhi, hlo⟩
  · rintro ⟨rfl, rfl⟩
    rw [← BitVec.and_append, BitVec.extractLsb'_append_extractLsb']

/-- A mask that is all ones on a field keeps the field. -/
theorem extractLsb'_and_of_ones {n len start : Nat} {m : BitVec n} (w : BitVec n)
    (hm : m.extractLsb' start len = BitVec.allOnes len) :
    (w &&& m).extractLsb' start len = w.extractLsb' start len := by
  rw [BitVec.extractLsb'_and, hm, BitVec.and_allOnes]

/-- Bits set outside a field keep the field. -/
theorem extractLsb'_or_of_zeros {n len start : Nat} {m : BitVec n} (w : BitVec n)
    (hm : m.extractLsb' start len = 0#len) : (w ||| m).extractLsb' start len = w.extractLsb' start len := by
  rw [BitVec.extractLsb'_or, hm, BitVec.or_zero]

/-- A mask of one bit tells that bit. -/
theorem and_twoPow_eq_iff {n i : Nat} (hi : i < n) (x : BitVec n) (b : Bool) :
    x &&& BitVec.twoPow n i = (if b then BitVec.twoPow n i else 0#n) ↔ x.getLsbD i = b := by
  rw [BitVec.and_twoPow]
  have hne : BitVec.twoPow n i ≠ 0#n := fun h => by
    have := congrArg (BitVec.getLsbD · i) h
    simp [hi] at this
  cases x.getLsbD i <;> cases b <;> simp [hne, hne.symm]

/-! ### Register fields (R84) -/

@[simp] theorem Reg.ofBits_toBits (r : Reg) : Reg.ofBits r.toBits = r := by cases r <;> rfl

/-- Only the field 0b111 names R7. -/
theorem Reg.ofBits_eq_r7_iff (b : BitVec 3) : Reg.ofBits b = .r7 ↔ b = 0b111#3 := by
  revert b; decide

/-! ### The rows of the opcode map, by match and mask (R90, R91) -/

/-- A row that matches ir[15:12] alone. -/
theorem opcodeRow_iff {w : Word} (k : BitVec 4) : w &&& 0xF000 = k ++ 0#12 ↔ opcodeField w = k := by
  change w &&& (BitVec.allOnes 4 ++ 0#12) = _ ↔ _
  rw [and_append_eq_append_iff (n := 4) (k := 12), BitVec.and_zero, BitVec.and_allOnes]
  exact and_iff_left rfl

/-- A row that matches ir[15:12] and one more bit. -/
theorem opcodeBitRow_iff {w : Word} (k : BitVec 4) {i : Nat} (hi : i < 12) (b : Bool) :
    w &&& (BitVec.allOnes 4 ++ BitVec.twoPow 12 i) = k ++ (if b then BitVec.twoPow 12 i else 0#12) ↔
      opcodeField w = k ∧ w.getLsbD i = b := by
  rw [and_append_eq_append_iff (n := 4) (k := 12), and_twoPow_eq_iff hi, BitVec.and_allOnes,
    BitVec.getLsbD_extractLsb', decide_eq_true hi, Bool.true_and, Nat.zero_add]
  rfl

/-- ADD and AND: ir[15:12], and ir[5] for the form. -/
theorem immRow_iff {w : Word} (k : BitVec 4) (b : Bool) :
    w &&& 0xF020 = k ++ (if b then 0x020#12 else 0#12) ↔ opcodeField w = k ∧ immMode w = b :=
  opcodeBitRow_iff k (i := 5) (by decide) b

/-- JSR and JSRR: ir[15:12], and ir[11] for the form. -/
theorem jsrRow_iff {w : Word} (k : BitVec 4) (b : Bool) :
    w &&& 0xF800 = k ++ (if b then 0x800#12 else 0#12) ↔ opcodeField w = k ∧ jsrMode w = b :=
  opcodeBitRow_iff k (i := 11) (by decide) b

/-- RET: ir[15:12] of JMP, and ir[8:6] = 7. -/
theorem retRow_iff {w : Word} : w &&& 0xF1C0 = 0xC1C0 ↔ opcodeField w = 0xC ∧ baseField w = .r7 := by
  change w &&& (BitVec.allOnes 4 ++ (0#3 ++ BitVec.allOnes 3 ++ 0#6)) = 0xC#4 ++ (0#3 ++ 7#3 ++ 0#6) ↔ _
  rw [and_append_eq_append_iff (n := 4) (k := 12), and_append_eq_append_iff (n := 6) (k := 6),
    and_append_eq_append_iff (n := 3) (k := 3)]
  have hbase : ((w.extractLsb' 0 12).extractLsb' 6 6).extractLsb' 0 3 = w.extractLsb' 6 3 := by
    ext j hj
    simp [show j < 6 by omega]
  simp only [BitVec.and_allOnes, BitVec.and_zero, hbase, and_true, true_and, baseField, Reg.ofBits_eq_r7_iff]
  rfl

/-! ### The decoder, by opcode (R90) -/

section
variable {w : Word}

theorem decode_opcode0 (h : opcodeField w = 0x0) :
    decode w = .br (w.getLsbD 11) (w.getLsbD 10) (w.getLsbD 9) (w.extractLsb' 0 9) := by
  rw [decode, h]; rfl

theorem decode_opcode1 (h : opcodeField w = 0x1) :
    decode w = if immMode w then .addImm (drField w) (baseField w) (w.extractLsb' 0 5)
      else .addReg (drField w) (baseField w) (sr2Field w) := by
  rw [decode, h]; rfl

theorem decode_opcode2 (h : opcodeField w = 0x2) : decode w = .ld (drField w) (w.extractLsb' 0 9) := by
  rw [decode, h]; rfl

theorem decode_opcode3 (h : opcodeField w = 0x3) : decode w = .st (drField w) (w.extractLsb' 0 9) := by
  rw [decode, h]; rfl

theorem decode_opcode4 (h : opcodeField w = 0x4) :
    decode w = if jsrMode w then .jsr (w.extractLsb' 0 11) else .jsrr (baseField w) := by
  rw [decode, h]; rfl

theorem decode_opcode5 (h : opcodeField w = 0x5) :
    decode w = if immMode w then .andImm (drField w) (baseField w) (w.extractLsb' 0 5)
      else .andReg (drField w) (baseField w) (sr2Field w) := by
  rw [decode, h]; rfl

theorem decode_opcode6 (h : opcodeField w = 0x6) :
    decode w = .ldr (drField w) (baseField w) (w.extractLsb' 0 6) := by
  rw [decode, h]; rfl

theorem decode_opcode7 (h : opcodeField w = 0x7) :
    decode w = .str (drField w) (baseField w) (w.extractLsb' 0 6) := by
  rw [decode, h]; rfl

theorem decode_opcode8 (h : opcodeField w = 0x8) : decode w = .rti := by
  rw [decode, h]; rfl

theorem decode_opcode9 (h : opcodeField w = 0x9) : decode w = .not (drField w) (baseField w) := by
  rw [decode, h]; rfl

theorem decode_opcodeA (h : opcodeField w = 0xA) : decode w = .ldi (drField w) (w.extractLsb' 0 9) := by
  rw [decode, h]; rfl

theorem decode_opcodeB (h : opcodeField w = 0xB) : decode w = .sti (drField w) (w.extractLsb' 0 9) := by
  rw [decode, h]; rfl

theorem decode_opcodeC (h : opcodeField w = 0xC) : decode w = jumpTo (baseField w) := by
  rw [decode, h]; rfl

theorem decode_opcodeD (h : opcodeField w = 0xD) : decode w = .unassigned (w.extractLsb' 0 12) := by
  rw [decode, h]; rfl

theorem decode_opcodeE (h : opcodeField w = 0xE) : decode w = .lea (drField w) (w.extractLsb' 0 9) := by
  rw [decode, h]; rfl

theorem decode_opcodeF (h : opcodeField w = 0xF) : decode w = .trap (w.extractLsb' 0 8) := by
  rw [decode, h]; rfl

/-! ### The sub-decodes (R91, R137) -/

theorem decode_addReg (h : opcodeField w = 0x1) (hm : immMode w = false) :
    decode w = .addReg (drField w) (baseField w) (sr2Field w) := by
  rw [decode_opcode1 h, hm]; rfl

theorem decode_addImm (h : opcodeField w = 0x1) (hm : immMode w = true) :
    decode w = .addImm (drField w) (baseField w) (w.extractLsb' 0 5) := by
  rw [decode_opcode1 h, hm]; rfl

theorem decode_andReg (h : opcodeField w = 0x5) (hm : immMode w = false) :
    decode w = .andReg (drField w) (baseField w) (sr2Field w) := by
  rw [decode_opcode5 h, hm]; rfl

theorem decode_andImm (h : opcodeField w = 0x5) (hm : immMode w = true) :
    decode w = .andImm (drField w) (baseField w) (w.extractLsb' 0 5) := by
  rw [decode_opcode5 h, hm]; rfl

theorem decode_jsr (h : opcodeField w = 0x4) (hm : jsrMode w = true) :
    decode w = .jsr (w.extractLsb' 0 11) := by
  rw [decode_opcode4 h, hm]; rfl

theorem decode_jsrr (h : opcodeField w = 0x4) (hm : jsrMode w = false) :
    decode w = .jsrr (baseField w) := by
  rw [decode_opcode4 h, hm]; rfl

theorem decode_ret (h : opcodeField w = 0xC) (hb : baseField w = .r7) : decode w = .ret := by
  rw [decode_opcodeC h, jumpTo, if_pos hb]

theorem decode_jmp (h : opcodeField w = 0xC) (hb : baseField w ≠ .r7) : decode w = .jmp (baseField w) := by
  rw [decode_opcodeC h, jumpTo, if_neg hb]

end

/-- A word lies in the row of the instruction it decodes to (R90, R91). -/
theorem decode_inRow (w : Word) : w &&& Laws.rowMask (decode w) = Laws.rowMatch (decode w) := by
  have hcases : ∀ k : BitVec 4, opcodeField w = k → w &&& Laws.rowMask (decode w) = Laws.rowMatch (decode w) := by
    intro k h
    match k, h with
    | 0x0, h => rw [decode_opcode0 h]; exact (opcodeRow_iff 0x0).mpr h
    | 0x1, h =>
      cases hm : immMode w
      · rw [decode_addReg h hm]; exact (immRow_iff 0x1 false).mpr ⟨h, hm⟩
      · rw [decode_addImm h hm]; exact (immRow_iff 0x1 true).mpr ⟨h, hm⟩
    | 0x2, h => rw [decode_opcode2 h]; exact (opcodeRow_iff 0x2).mpr h
    | 0x3, h => rw [decode_opcode3 h]; exact (opcodeRow_iff 0x3).mpr h
    | 0x4, h =>
      cases hm : jsrMode w
      · rw [decode_jsrr h hm]; exact (jsrRow_iff 0x4 false).mpr ⟨h, hm⟩
      · rw [decode_jsr h hm]; exact (jsrRow_iff 0x4 true).mpr ⟨h, hm⟩
    | 0x5, h =>
      cases hm : immMode w
      · rw [decode_andReg h hm]; exact (immRow_iff 0x5 false).mpr ⟨h, hm⟩
      · rw [decode_andImm h hm]; exact (immRow_iff 0x5 true).mpr ⟨h, hm⟩
    | 0x6, h => rw [decode_opcode6 h]; exact (opcodeRow_iff 0x6).mpr h
    | 0x7, h => rw [decode_opcode7 h]; exact (opcodeRow_iff 0x7).mpr h
    | 0x8, h => rw [decode_opcode8 h]; exact (opcodeRow_iff 0x8).mpr h
    | 0x9, h => rw [decode_opcode9 h]; exact (opcodeRow_iff 0x9).mpr h
    | 0xA, h => rw [decode_opcodeA h]; exact (opcodeRow_iff 0xA).mpr h
    | 0xB, h => rw [decode_opcodeB h]; exact (opcodeRow_iff 0xB).mpr h
    | 0xC, h =>
      by_cases hb : baseField w = .r7
      · rw [decode_ret h hb]; exact retRow_iff.mpr ⟨h, hb⟩
      · rw [decode_jmp h hb]; exact (opcodeRow_iff 0xC).mpr h
    | 0xD, h => rw [decode_opcodeD h]; exact (opcodeRow_iff 0xD).mpr h
    | 0xE, h => rw [decode_opcodeE h]; exact (opcodeRow_iff 0xE).mpr h
    | 0xF, h => rw [decode_opcodeF h]; exact (opcodeRow_iff 0xF).mpr h
    | ⟨⟨n + 16, hn⟩⟩, _ => exact absurd hn (by omega)
  exact hcases _ rfl

/-- The row of the instruction a word is known to decode to. -/
theorem inRow_of_decode {w : Word} {i : Instr} (h : decode w = i) : w &&& Laws.rowMask i = Laws.rowMatch i :=
  h ▸ decode_inRow w

/-! ### The fields of an encoded word (R83, R84) -/

/-- A word with register fields at ir[11:9] and ir[8:6]. -/
theorem drField_baseField_eq {w : Word} {op : BitVec 4} {dr base : Reg} {lo : BitVec 6}
    (h : w = op ++ dr.toBits ++ base.toBits ++ lo) : drField w = dr ∧ baseField w = base := by
  subst h
  constructor
  · rw [drField, BitVec.extractLsb'_append_eq_of_le (by decide), BitVec.extractLsb'_append_eq_of_le (by decide),
      BitVec.extractLsb'_append_eq_right, Reg.ofBits_toBits]
  · rw [baseField, BitVec.extractLsb'_append_eq_of_le (by decide), BitVec.extractLsb'_append_eq_right,
      Reg.ofBits_toBits]

/-- A word with a register field at ir[11:9] and a nine-bit offset. -/
theorem drField_eq (op : BitVec 4) (dr : Reg) (lo : BitVec 9) : drField (op ++ dr.toBits ++ lo) = dr := by
  rw [drField, BitVec.extractLsb'_append_eq_of_le (by decide), BitVec.extractLsb'_append_eq_right,
    Reg.ofBits_toBits]

/-- A word with a register field at ir[2:0]. -/
theorem sr2Field_eq (hi : BitVec 13) (r : Reg) : sr2Field (hi ++ r.toBits) = r :=
  (congrArg Reg.ofBits BitVec.extractLsb'_append_eq_right).trans r.ofBits_toBits

/-- The three condition bits of a BR word. -/
theorem getLsbD_encode_br (n z p : Bool) (offset9 : BitVec 9) :
    (encode (.br n z p offset9)).getLsbD 11 = n ∧ (encode (.br n z p offset9)).getLsbD 10 = z ∧
      (encode (.br n z p offset9)).getLsbD 9 = p := by
  have happ : ∀ i, 9 ≤ i → (encode (.br n z p offset9)).getLsbD i =
      (0b0000#4 ++ BitVec.ofBool n ++ BitVec.ofBool z ++ BitVec.ofBool p).getLsbD (i - 9) := fun i hi => by
    rw [encode, BitVec.getLsbD_append, if_neg (by omega)]
  rw [happ 11 (by decide), happ 10 (by decide), happ 9 (by decide)]
  clear happ
  revert n z p
  decide

/-! ### The round trip (R83, R88, R90) -/

/-- Settles O2: each encoded word lies in its instruction's row, which selects the decoder's arm, and its fields are the
operands. -/
theorem decodeEncodeAgree : Obligations.DecodeEncodeAgree := by
  intro i hi
  cases i with
  | addReg dr sr1 sr2 =>
    obtain ⟨hop, hm⟩ := (immRow_iff 0x1 false).mp (Laws.EncodesInRow.addReg dr sr1 sr2)
    obtain ⟨hdr, hsr1⟩ := drField_baseField_eq (w := encode (.addReg dr sr1 sr2)) BitVec.append_assoc
    have hsr2 : sr2Field (encode (.addReg dr sr1 sr2)) = sr2 := sr2Field_eq _ sr2
    rw [decode_addReg hop hm, hdr, hsr1, hsr2]
  | addImm dr sr1 imm5 =>
    obtain ⟨hop, hm⟩ := (immRow_iff 0x1 true).mp (Laws.EncodesInRow.addImm dr sr1 imm5)
    obtain ⟨hdr, hsr1⟩ := drField_baseField_eq (w := encode (.addImm dr sr1 imm5)) BitVec.append_assoc
    have himm : (encode (.addImm dr sr1 imm5)).extractLsb' 0 5 = imm5 := BitVec.extractLsb'_append_eq_right
    rw [decode_addImm hop hm, hdr, hsr1, himm]
  | andReg dr sr1 sr2 =>
    obtain ⟨hop, hm⟩ := (immRow_iff 0x5 false).mp (Laws.EncodesInRow.andReg dr sr1 sr2)
    obtain ⟨hdr, hsr1⟩ := drField_baseField_eq (w := encode (.andReg dr sr1 sr2)) BitVec.append_assoc
    have hsr2 : sr2Field (encode (.andReg dr sr1 sr2)) = sr2 := sr2Field_eq _ sr2
    rw [decode_andReg hop hm, hdr, hsr1, hsr2]
  | andImm dr sr1 imm5 =>
    obtain ⟨hop, hm⟩ := (immRow_iff 0x5 true).mp (Laws.EncodesInRow.andImm dr sr1 imm5)
    obtain ⟨hdr, hsr1⟩ := drField_baseField_eq (w := encode (.andImm dr sr1 imm5)) BitVec.append_assoc
    have himm : (encode (.andImm dr sr1 imm5)).extractLsb' 0 5 = imm5 := BitVec.extractLsb'_append_eq_right
    rw [decode_andImm hop hm, hdr, hsr1, himm]
  | not dr sr =>
    have hop := (opcodeRow_iff 0x9).mp (Laws.EncodesInRow.not dr sr)
    obtain ⟨hdr, hsr⟩ := drField_baseField_eq (w := encode (.not dr sr)) rfl
    rw [decode_opcode9 hop, hdr, hsr]
  | br n z p offset9 =>
    have hop := (opcodeRow_iff 0x0).mp (Laws.EncodesInRow.br n z p offset9)
    obtain ⟨hn, hz, hp⟩ := getLsbD_encode_br n z p offset9
    have hoff : (encode (.br n z p offset9)).extractLsb' 0 9 = offset9 := BitVec.extractLsb'_append_eq_right
    rw [decode_opcode0 hop, hn, hz, hp, hoff]
  | jmp baseR =>
    have hop := (opcodeRow_iff 0xC).mp (Laws.EncodesInRow.jmp baseR)
    obtain ⟨-, hbase⟩ := drField_baseField_eq (dr := .r0) (w := encode (.jmp baseR)) rfl
    have hne : baseField (encode (.jmp baseR)) ≠ .r7 := hbase.symm ▸ bne_iff_ne.mp hi
    rw [decode_jmp hop hne, hbase]
  | ret => rfl
  | jsr offset11 =>
    obtain ⟨hop, hm⟩ := (jsrRow_iff 0x4 true).mp (Laws.EncodesInRow.jsr offset11)
    have hoff : (encode (.jsr offset11)).extractLsb' 0 11 = offset11 := BitVec.extractLsb'_append_eq_right
    rw [decode_jsr hop hm, hoff]
  | jsrr baseR =>
    obtain ⟨hop, hm⟩ := (jsrRow_iff 0x4 false).mp (Laws.EncodesInRow.jsrr baseR)
    obtain ⟨-, hbase⟩ := drField_baseField_eq (dr := .r0) (w := encode (.jsrr baseR)) rfl
    rw [decode_jsrr hop hm, hbase]
  | ld dr offset9 =>
    have hop := (opcodeRow_iff 0x2).mp (Laws.EncodesInRow.ld dr offset9)
    rw [decode_opcode2 hop, encode, drField_eq, BitVec.extractLsb'_append_eq_right]
  | ldi dr offset9 =>
    have hop := (opcodeRow_iff 0xA).mp (Laws.EncodesInRow.ldi dr offset9)
    rw [decode_opcodeA hop, encode, drField_eq, BitVec.extractLsb'_append_eq_right]
  | ldr dr baseR offset6 =>
    have hop := (opcodeRow_iff 0x6).mp (Laws.EncodesInRow.ldr dr baseR offset6)
    obtain ⟨hdr, hbase⟩ := drField_baseField_eq (w := encode (.ldr dr baseR offset6)) rfl
    have hoff : (encode (.ldr dr baseR offset6)).extractLsb' 0 6 = offset6 := BitVec.extractLsb'_append_eq_right
    rw [decode_opcode6 hop, hdr, hbase, hoff]
  | lea dr offset9 =>
    have hop := (opcodeRow_iff 0xE).mp (Laws.EncodesInRow.lea dr offset9)
    rw [decode_opcodeE hop, encode, drField_eq, BitVec.extractLsb'_append_eq_right]
  | st sr offset9 =>
    have hop := (opcodeRow_iff 0x3).mp (Laws.EncodesInRow.st sr offset9)
    rw [decode_opcode3 hop, encode, drField_eq, BitVec.extractLsb'_append_eq_right]
  | sti sr offset9 =>
    have hop := (opcodeRow_iff 0xB).mp (Laws.EncodesInRow.sti sr offset9)
    rw [decode_opcodeB hop, encode, drField_eq, BitVec.extractLsb'_append_eq_right]
  | str sr baseR offset6 =>
    have hop := (opcodeRow_iff 0x7).mp (Laws.EncodesInRow.str sr baseR offset6)
    obtain ⟨hsr, hbase⟩ := drField_baseField_eq (w := encode (.str sr baseR offset6)) rfl
    have hoff : (encode (.str sr baseR offset6)).extractLsb' 0 6 = offset6 := BitVec.extractLsb'_append_eq_right
    rw [decode_opcode7 hop, hsr, hbase, hoff]
  | rti => rfl
  | trap trapvect8 =>
    have hop := (opcodeRow_iff 0xF).mp (Laws.EncodesInRow.trap trapvect8)
    rw [decode_opcodeF hop, encode, BitVec.extractLsb'_append_eq_right]
  | unassigned low12 =>
    have hop := (opcodeRow_iff 0xD).mp (Laws.EncodesInRow.unassigned low12)
    rw [decode_opcodeD hop, encode, BitVec.extractLsb'_append_eq_right]

/-! ### Every word -/

/-- The decoder answers no JMP through R7 (log 14). -/
theorem decode_ne_jmp_r7 (w : Word) : decode w ≠ .jmp .r7 := by
  intro h
  have hop : opcodeField w = 0xC := (opcodeRow_iff 0xC).mp (inRow_of_decode h)
  by_cases hb : baseField w = .r7
  · exact Instr.noConfusion ((decode_ret hop hb).symm.trans h)
  · exact hb (Instr.jmp.inj ((decode_jmp hop hb).symm.trans h))

/-- JMP through R7 is the one instruction that stands for no word (log 14). -/
theorem Instr.wf_of_ne_jmp_r7 {i : Instr} (h : i ≠ .jmp .r7) : i.wf = true := by
  cases i with
  | jmp baseR => exact bne_iff_ne.mpr fun hb => h (hb ▸ rfl)
  | _ => rfl

/-- Settles O3, by the round trip on the instruction the word decodes to. -/
theorem everyWordIsSomeInstruction : Obligations.EveryWordIsSomeInstruction := fun w =>
  have hwf := Instr.wf_of_ne_jmp_r7 (decode_ne_jmp_r7 w)
  ⟨hwf, decodeEncodeAgree (decode w) hwf⟩

/-- Settles O1. -/
theorem sampleWordsDecode : Obligations.SampleWordsDecode := by
  unfold Obligations.SampleWordsDecode
  decide

/-- Settles O4: from left to right the row selects the decoder's arm, from right to left it is `decode_inRow`; the
rows of JMP and RET are told apart by the base field. -/
theorem rowsClassifyWords : Obligations.RowsClassifyWords := by
  intro w
  refine ⟨⟨fun h => ?addReg, fun ⟨_, _, _, h⟩ => inRow_of_decode h⟩,
    ⟨fun h => ?addImm, fun ⟨_, _, _, h⟩ => inRow_of_decode h⟩,
    ⟨fun h => ?andReg, fun ⟨_, _, _, h⟩ => inRow_of_decode h⟩,
    ⟨fun h => ?andImm, fun ⟨_, _, _, h⟩ => inRow_of_decode h⟩,
    ⟨fun h => ⟨_, _, decode_opcode9 ((opcodeRow_iff 0x9).mp h)⟩, fun ⟨_, _, h⟩ => inRow_of_decode h⟩,
    ⟨fun h => ⟨_, _, _, _, decode_opcode0 ((opcodeRow_iff 0x0).mp h)⟩, fun ⟨_, _, _, _, h⟩ => inRow_of_decode h⟩,
    ⟨fun h => ?jmp, fun ⟨a, h⟩ => ⟨inRow_of_decode h, ?jmpNotRet⟩⟩,
    ⟨fun h => ?ret, fun h => inRow_of_decode h⟩,
    ⟨fun h => ?jsr, fun ⟨_, h⟩ => inRow_of_decode h⟩,
    ⟨fun h => ?jsrr, fun ⟨_, h⟩ => inRow_of_decode h⟩,
    ⟨fun h => ⟨_, _, decode_opcode2 ((opcodeRow_iff 0x2).mp h)⟩, fun ⟨_, _, h⟩ => inRow_of_decode h⟩,
    ⟨fun h => ⟨_, _, decode_opcodeA ((opcodeRow_iff 0xA).mp h)⟩, fun ⟨_, _, h⟩ => inRow_of_decode h⟩,
    ⟨fun h => ⟨_, _, _, decode_opcode6 ((opcodeRow_iff 0x6).mp h)⟩, fun ⟨_, _, _, h⟩ => inRow_of_decode h⟩,
    ⟨fun h => ⟨_, _, decode_opcodeE ((opcodeRow_iff 0xE).mp h)⟩, fun ⟨_, _, h⟩ => inRow_of_decode h⟩,
    ⟨fun h => ⟨_, _, decode_opcode3 ((opcodeRow_iff 0x3).mp h)⟩, fun ⟨_, _, h⟩ => inRow_of_decode h⟩,
    ⟨fun h => ⟨_, _, decode_opcodeB ((opcodeRow_iff 0xB).mp h)⟩, fun ⟨_, _, h⟩ => inRow_of_decode h⟩,
    ⟨fun h => ⟨_, _, _, decode_opcode7 ((opcodeRow_iff 0x7).mp h)⟩, fun ⟨_, _, _, h⟩ => inRow_of_decode h⟩,
    ⟨fun h => decode_opcode8 ((opcodeRow_iff 0x8).mp h), fun h => inRow_of_decode h⟩,
    ⟨fun h => ⟨_, decode_opcodeF ((opcodeRow_iff 0xF).mp h)⟩, fun ⟨_, h⟩ => inRow_of_decode h⟩,
    ⟨fun h => ⟨_, decode_opcodeD ((opcodeRow_iff 0xD).mp h)⟩, fun ⟨_, h⟩ => inRow_of_decode h⟩⟩
  case addReg => obtain ⟨hop, hm⟩ := (immRow_iff 0x1 false).mp h; exact ⟨_, _, _, decode_addReg hop hm⟩
  case addImm => obtain ⟨hop, hm⟩ := (immRow_iff 0x1 true).mp h; exact ⟨_, _, _, decode_addImm hop hm⟩
  case andReg => obtain ⟨hop, hm⟩ := (immRow_iff 0x5 false).mp h; exact ⟨_, _, _, decode_andReg hop hm⟩
  case andImm => obtain ⟨hop, hm⟩ := (immRow_iff 0x5 true).mp h; exact ⟨_, _, _, decode_andImm hop hm⟩
  case jsr => obtain ⟨hop, hm⟩ := (jsrRow_iff 0x4 true).mp h; exact ⟨_, decode_jsr hop hm⟩
  case jsrr => obtain ⟨hop, hm⟩ := (jsrRow_iff 0x4 false).mp h; exact ⟨_, decode_jsrr hop hm⟩
  case ret => obtain ⟨hop, hb⟩ := retRow_iff.mp h; exact decode_ret hop hb
  case jmp =>
    obtain ⟨hrow, hnot⟩ := h
    have hop := (opcodeRow_iff 0xC).mp hrow
    exact ⟨_, decode_jmp hop fun hb => hnot (retRow_iff.mpr ⟨hop, hb⟩)⟩
  case jmpNotRet =>
    intro hret
    obtain ⟨hop, hb⟩ := retRow_iff.mp hret
    exact Instr.noConfusion ((decode_ret hop hb).symm.trans h)

/-! ### Ignored bits (R87) -/

/-- The register form of ADD and AND ignores ir[4:3]. -/
theorem regForm_fields_and_mask (w : Word) :
    opcodeField (w &&& 0xFFE7) = opcodeField w ∧ immMode (w &&& 0xFFE7) = immMode w ∧
      drField (w &&& 0xFFE7) = drField w ∧ baseField (w &&& 0xFFE7) = baseField w ∧
      sr2Field (w &&& 0xFFE7) = sr2Field w := by
  refine ⟨extractLsb'_and_of_ones w rfl, ?_, congrArg Reg.ofBits (extractLsb'_and_of_ones w rfl),
    congrArg Reg.ofBits (extractLsb'_and_of_ones w rfl), congrArg Reg.ofBits (extractLsb'_and_of_ones w rfl)⟩
  rw [immMode, BitVec.getLsbD_and]
  exact Bool.and_true _

/-- Settles O5: the fields that the decoder reads keep their values. -/
theorem ignoredBitsAreIgnored : Obligations.IgnoredBitsAreIgnored := by
  intro w
  refine ⟨fun hop hm => ?regForm, fun hop => ?not, fun hop => ?jmp, fun hop hm => ?jsrr, fun hop => ?rti,
    fun hop => ?trap⟩
  case regForm =>
    obtain ⟨eop, em, edr, ebase, esr2⟩ := regForm_fields_and_mask w
    obtain hop | hop := hop
    · rw [decode_addReg hop hm, decode_addReg (eop.trans hop) (em.trans hm), edr, ebase, esr2]
    · rw [decode_andReg hop hm, decode_andReg (eop.trans hop) (em.trans hm), edr, ebase, esr2]
  case not =>
    have eop : opcodeField (w ||| 0x003F) = opcodeField w := extractLsb'_or_of_zeros w rfl
    have edr : drField (w ||| 0x003F) = drField w := congrArg Reg.ofBits (extractLsb'_or_of_zeros w rfl)
    have ebase : baseField (w ||| 0x003F) = baseField w := congrArg Reg.ofBits (extractLsb'_or_of_zeros w rfl)
    rw [decode_opcode9 hop, decode_opcode9 (eop.trans hop), edr, ebase]
  case jmp =>
    have eop : opcodeField (w &&& 0xF1C0) = opcodeField w := extractLsb'_and_of_ones w rfl
    have ebase : baseField (w &&& 0xF1C0) = baseField w := congrArg Reg.ofBits (extractLsb'_and_of_ones w rfl)
    rw [decode_opcodeC hop, decode_opcodeC (eop.trans hop), ebase]
  case jsrr =>
    have eop : opcodeField (w &&& 0xF9C0) = opcodeField w := extractLsb'_and_of_ones w rfl
    have em : jsrMode (w &&& 0xF9C0) = jsrMode w := (BitVec.getLsbD_and ..).trans (Bool.and_true _)
    have ebase : baseField (w &&& 0xF9C0) = baseField w := congrArg Reg.ofBits (extractLsb'_and_of_ones w rfl)
    rw [decode_jsrr hop hm, decode_jsrr (eop.trans hop) (em.trans hm), ebase]
  case rti =>
    have eop : opcodeField (w &&& 0xF000) = opcodeField w := extractLsb'_and_of_ones w rfl
    rw [decode_opcode8 hop, decode_opcode8 (eop.trans hop)]
  case trap =>
    have eop : opcodeField (w &&& 0xF0FF) = opcodeField w := extractLsb'_and_of_ones w rfl
    have evec : (w &&& 0xF0FF).extractLsb' 0 8 = w.extractLsb' 0 8 := extractLsb'_and_of_ones w rfl
    rw [decode_opcodeF hop, decode_opcodeF (eop.trans hop), evec]

end Sys2Proof
end

section
/-!
PROOFS. What every instruction, and so every step, keeps: the invariant (R39), the frame of registers, pc, memory and
parameters (R32, R34, R51), the run status (R221), and what may stand in the record of the ports (R242, R247).
-/

namespace Sys2Proof.Machine

/-! ### The instructions that use ports, by their requests -/

theorem exec_ld (dr : Reg) (o : BitVec 9) (s : State) : exec (.ld dr o) s = loadFrom dr (pcRel9 o s) s := rfl

theorem exec_ldr (dr b : Reg) (o : BitVec 6) (s : State) : exec (.ldr dr b o) s = loadFrom dr (baseOff6 b o s) s := rfl

theorem exec_ldi (dr : Reg) (o : BitVec 9) (s : State) :
    exec (.ldi dr o) s = (memRead (pcRel9 o s) s).andThen fun p s1 => loadFrom dr p s1 := rfl

theorem exec_sti (sr : Reg) (o : BitVec 9) (s : State) :
    exec (.sti sr o) s = (memRead (pcRel9 o s) s).andThen fun p s1 => .next (memWrite p (s1.reg sr) s1) := rfl

theorem exec_trap_getc (s : State) :
    exec (.trap 0x20) s = (inputRead (enterTrap s)).andThen fun c s1 => .next (s1.setReg .r0 c) := rfl

theorem exec_trap_out (s : State) :
    exec (.trap 0x21) s = (emit (lowByte (s.reg .r0)) (enterTrap s)).andThen fun _ s1 => .next s1 := by
  change execTrap 0x21 s = _
  rw [execTrap, if_neg (by decide), if_pos rfl, outRoutine, reg_enterTrap_ne s (by decide)]

theorem exec_trap_in (s : State) : exec (.trap 0x23) s = inRoutine (enterTrap s) := rfl

theorem putsChars_ne_nil (w : Word) : putsChars w ≠ [] := List.cons_ne_nil _ _

theorem putspChars_ne_nil (w : Word) : putspChars w ≠ [] := by
  rw [putspChars]
  split <;> exact List.cons_ne_nil _ _

/-- PUTS is the scan for low bytes, after trap entry (R192). -/
theorem exec_trap_puts (s : State) :
    exec (.trap 0x22) s = scan putsChars (scanBound (enterTrap s)) (s.reg .r0) (enterTrap s) := by
  change execTrap 0x22 s = _
  rw [execTrap, if_neg (by decide), if_neg (by decide), if_pos rfl, putsRoutine, reg_enterTrap_ne s (by decide)]

/-- PUTSP is the scan for packed characters, after trap entry (R196). -/
theorem exec_trap_putsp (s : State) :
    exec (.trap 0x24) s = scan putspChars (scanBound (enterTrap s)) (s.reg .r0) (enterTrap s) := by
  change execTrap 0x24 s = _
  rw [execTrap, if_neg (by decide), if_neg (by decide), if_neg (by decide), if_neg (by decide), if_pos rfl,
    putspRoutine, reg_enterTrap_ne s (by decide)]

/-- Every vector, once for every state: GETC, OUT, a scan, IN, or the end of the run (R184, R186, R199). -/
theorem trap_routine (v : BitVec 8) :
    (v = 0x20 ∧ ∀ s, exec (.trap v) s = (inputRead (enterTrap s)).andThen fun c s1 => .next (s1.setReg .r0 c)) ∨
    (v = 0x21 ∧ ∀ s, exec (.trap v) s = (emit (lowByte (s.reg .r0)) (enterTrap s)).andThen fun _ s1 => .next s1) ∨
    ((v = 0x22 ∨ v = 0x24) ∧ ∃ chars : Word → List Byte, (∀ w, chars w ≠ []) ∧
      ∀ s, exec (.trap v) s = scan chars (scanBound (enterTrap s)) (s.reg .r0) (enterTrap s)) ∨
    (v = 0x23 ∧ ∀ s, exec (.trap v) s = inRoutine (enterTrap s)) ∨
    ∃ st, ∀ s, exec (.trap v) s = .next ((enterTrap s).setStatus st) := by
  by_cases h20 : v = 0x20
  · subst h20; exact .inl ⟨rfl, exec_trap_getc⟩
  by_cases h21 : v = 0x21
  · subst h21; exact .inr (.inl ⟨rfl, exec_trap_out⟩)
  by_cases h22 : v = 0x22
  · subst h22; exact .inr (.inr (.inl ⟨.inl rfl, putsChars, putsChars_ne_nil, exec_trap_puts⟩))
  by_cases h23 : v = 0x23
  · subst h23; exact .inr (.inr (.inr (.inl ⟨rfl, exec_trap_in⟩)))
  by_cases h24 : v = 0x24
  · subst h24; exact .inr (.inr (.inl ⟨.inr rfl, putspChars, putspChars_ne_nil, exec_trap_putsp⟩))
  refine .inr (.inr (.inr (.inr ?_)))
  by_cases h25 : v = 0x25
  · subst h25; exact ⟨_, exec_trap_halt⟩
  · refine ⟨.fatal (.unknownTrapVector v), fun s => ?_⟩
    change execTrap v s = _
    rw [execTrap, if_neg h20, if_neg h21, if_neg h22, if_neg h23, if_neg h24, if_neg h25]
    rfl

/-! ### The invariant -/

/-- The ports write nothing the invariant speaks of. -/
theorem PortsOnly.inv {s t : State} (h : PortsOnly s t) (hs : s.Inv) : t.Inv := by
  obtain ⟨-, -, hpsr, hmem, hcfg, -⟩ := h
  rwa [State.Inv, hmem, hpsr, hcfg]

/-- Every instruction keeps the invariant: a result leaves one flag set, a store keeps memory canonical, and the rest
writes neither psr nor memory. -/
theorem exec_inv {i : Instr} {s t : State} (hs : s.Inv) (h : exec i s = .next t) : t.Inv := by
  obtain ⟨hp, -⟩ | ⟨dr, v, s1, -, hp, -, rfl⟩ | ⟨-, -, v, rfl | ⟨rfl, -⟩⟩ | ⟨a, sr, s1, -, hp, -, rfl⟩ | ⟨v, rfl⟩ :=
    exec_cases h
  case inl => exact hp.inv hs
  case inr.inl =>
    obtain ⟨hmem, -, hcfg⟩ := hp.inv hs
    exact ⟨hmem, psrOneHot_psrWithCC s1.psr v, hcfg⟩
  case inr.inr.inl.inl => exact hs
  case inr.inr.inl.inr => exact hs
  case inr.inr.inr.inl =>
    obtain ⟨hmem, hpsr, hcfg⟩ := hp.inv hs
    exact ⟨memWrite_wf hmem a _, hpsr, hcfg⟩
  case inr.inr.inr.inr =>
    obtain ⟨-, hpsr, hmem, hcfg, -⟩ := trap_next v h
    rwa [State.Inv, hmem, hpsr, hcfg]

/-- Settles O54: the fetch uses the ports alone, and the instruction keeps the invariant. -/
theorem stepKeepsTheInvariant : Obligations.StepKeepsTheInvariant := by
  intro s t hs h
  obtain ⟨-, rfl⟩ | ⟨ir, s1, hp, -, hexec⟩ | hp := step_cases h
  · exact hs
  · exact exec_inv (s := s1.setPc (s1.pc + 1)) (hp.inv hs) hexec
  · exact hp.inv hs

/-! ### The record of the ports and the parameters -/

/-- Every instruction only adds to the record of the ports, and writes no parameter. -/
theorem exec_trace_cfg {i : Instr} {s t : State} (h : exec i s = .next t) : s.trace <+: t.trace ∧ t.cfg = s.cfg := by
  obtain ⟨⟨-, -, -, -, hcfg, htrace⟩, -⟩ | ⟨dr, v, s1, -, ⟨-, -, -, -, hcfg, htrace⟩, -, rfl⟩ |
    ⟨-, -, v, rfl | ⟨rfl, -⟩⟩ | ⟨a, sr, s1, -, ⟨-, -, -, -, hcfg, htrace⟩, -, rfl⟩ | ⟨v, rfl⟩ := exec_cases h
  case inl => exact ⟨htrace, hcfg⟩
  case inr.inl => exact ⟨htrace, hcfg⟩
  case inr.inr.inl.inl => exact ⟨List.prefix_refl _, rfl⟩
  case inr.inr.inl.inr => exact ⟨List.prefix_refl _, rfl⟩
  case inr.inr.inr.inl => exact ⟨htrace, hcfg⟩
  case inr.inr.inr.inr =>
    obtain ⟨-, -, -, hcfg, htrace, -⟩ := trap_next v h
    exact ⟨htrace, hcfg⟩

/-- Settles O55. -/
theorem stepOnlyAddsToTheTrace : Obligations.StepOnlyAddsToTheTrace := by
  intro s t h
  obtain ⟨-, rfl⟩ | ⟨ir, s1, ⟨-, -, -, -, hcfg, htrace⟩, -, hexec⟩ | ⟨-, -, -, -, hcfg, htrace⟩ := step_cases h
  · exact ⟨List.prefix_refl _, rfl⟩
  · obtain ⟨htrace', hcfg'⟩ := exec_trace_cfg hexec
    exact ⟨htrace.trans htrace', hcfg'.trans hcfg⟩
  · exact ⟨htrace, hcfg⟩

/-! ### The writers' tables (R32, R34, R51) -/

/-- A destination of setcc is the instruction's one register written (R32, R38). -/
theorem regWriters_of_setccOf {i : Instr} {dr : Reg} (h : setccOf i = some dr) : regWriters i = [dr] :=
  match i, h with
  | .addReg _ _ _, h | .addImm _ _ _, h | .andReg _ _ _, h | .andImm _ _ _, h | .not _ _, h | .ld _ _, h | .ldi _ _, h
  | .ldr _ _ _, h | .lea _ _, h => congrArg (fun r => [r]) (Option.some.inj h)

/-- Settles O43. -/
theorem registerWriters : Obligations.RegisterWriters := by
  intro i s t h r hr
  obtain ⟨hp, -⟩ | ⟨dr, v, s1, hdr, hp, -, rfl⟩ | ⟨-, -, v, rfl | ⟨rfl, hlink⟩⟩ |
    ⟨a, sr, s1, -, hp, -, rfl⟩ | ⟨v, rfl⟩ := exec_cases h
  case inl => exact hp.reg r
  case inr.inl =>
    rw [regWriters_of_setccOf hdr] at hr
    exact (reg_writeResult_ne v s1 (List.ne_of_not_mem_cons hr)).trans (hp.reg r)
  case inr.inr.inl.inl => rfl
  case inr.inr.inl.inr =>
    rw [hlink] at hr
    exact reg_link_ne s (List.ne_of_not_mem_cons hr)
  case inr.inr.inr.inl => exact hp.reg r
  case inr.inr.inr.inr =>
    obtain ⟨-, -, -, -, -, -, hregs⟩ := trap_next v h
    refine hregs r (fun h7 => ?_) (fun h0 hv => ?_)
    · subst h7; rw [regWriters] at hr; split at hr <;> simp at hr
    · subst h0; rw [regWriters, if_pos hv] at hr; simp at hr

/-- Settles O44. -/
theorem pcWriters : Obligations.PcWriters := by
  intro i s t hi h
  obtain ⟨⟨-, hpc, -⟩, -⟩ | ⟨dr, v, s1, -, ⟨-, hpc, -⟩, -, rfl⟩ | ⟨hpc, -⟩ | ⟨a, sr, s1, -, ⟨-, hpc, -⟩, -, rfl⟩ |
    ⟨v, rfl⟩ := exec_cases h
  case inl => exact hpc
  case inr.inl => exact hpc
  case inr.inr.inl => exact absurd (hi.symm.trans hpc) Bool.false_ne_true
  case inr.inr.inr.inl => exact hpc
  case inr.inr.inr.inr => exact (trap_next v h).1

/-- An instruction off the table of R51 leaves memory as it was. -/
theorem exec_mem_of_not_writesMem {i : Instr} {s t : State} (hi : writesMem i = false) (h : exec i s = .next t) :
    t.mem = s.mem := by
  obtain ⟨⟨-, -, -, hmem, -⟩, -⟩ | ⟨dr, v, s1, -, ⟨-, -, -, hmem, -⟩, -, rfl⟩ | ⟨-, -, v, rfl | ⟨rfl, -⟩⟩ |
    ⟨a, sr, s1, hw, -⟩ | ⟨v, rfl⟩ := exec_cases h
  case inl => exact hmem
  case inr.inl => exact hmem
  case inr.inr.inl.inl => rfl
  case inr.inr.inl.inr => rfl
  case inr.inr.inr.inl => exact absurd (hi.symm.trans hw) Bool.false_ne_true
  case inr.inr.inr.inr =>
    obtain ⟨-, -, hmem, -⟩ := trap_next v h
    exact hmem

/-- A store writes one word. -/
theorem memWrite_keepsMemBut {s : State} (h : s.mem.wf = true) (a v : Word) : KeepsMemBut a s (memWrite a v s) :=
  fun _ hb => Memory.read_write_ne h v hb

/-- STI, once its pointer read has answered (R162). -/
theorem exec_sti_of_memRead {sr : Reg} {o : BitVec 9} {s s1 : State} {p : Word}
    (h : memRead (pcRel9 o s) s = .value p s1) : exec (.sti sr o) s = .next (memWrite p (s1.reg sr) s1) := by
  rw [exec_sti, h, andThen_value]

/-- Settles O45: the table of R51 by `exec_mem_of_not_writesMem`, and the one word of each store. -/
theorem memoryWriters : Obligations.MemoryWriters := by
  intro i s t hwf h
  obtain ⟨htrace, hcfg⟩ := exec_trace_cfg h
  refine ⟨fun hi => exec_mem_of_not_writesMem hi h, fun sr o hi => ?st, fun sr b o hi => ?str,
    fun sr o p s1 hi hr => ?sti, hcfg, htrace⟩
  case st =>
    subst hi
    obtain rfl := Host.Outcome.next.inj h
    exact memWrite_keepsMemBut hwf _ _
  case str =>
    subst hi
    obtain rfl := Host.Outcome.next.inj h
    exact memWrite_keepsMemBut hwf _ _
  case sti =>
    subst hi
    have hread := readsTo_iff.mp hr
    obtain ⟨⟨-, -, -, hmem, -⟩, -⟩ := memRead_value_portsOnly hread
    obtain rfl := Host.Outcome.next.inj ((exec_sti_of_memRead hread).symm.trans h)
    intro a ha
    rw [memWrite_keepsMemBut (hmem ▸ hwf) _ _ a ha, hmem]

/-! ### Which instructions end a run (R221, R224) -/

/-- A load ends the run only where its data read asks the host. -/
theorem loadFrom_status {dr : Reg} {a : Word} {s t : State} (h : loadFrom dr a s = .next t)
    (hst : t.status ≠ s.status) : ReadsHost a s := by
  obtain ⟨v, s1, hread, rfl⟩ | hend := loadFrom_next h
  · exact absurd (memRead_value_portsOnly hread).2 hst
  · exact (memRead_ended hend).1

/-- Settles O46, by the instructions: those without a read write no status, and the others end the run in a read of the
data register. -/
theorem onlyTheseEndARun : Obligations.OnlyTheseEndARun := by
  intro i s t h hst
  cases i with
  | rti => exact .inl rfl
  | trap v => exact .inr (.inl ⟨v, rfl⟩)
  | ld dr o => exact .inr (.inr (.inl ⟨dr, o, .inl rfl, loadFrom_status h hst⟩))
  | ldr dr b o => exact .inr (.inr (.inr (.inr ⟨dr, b, o, rfl, loadFrom_status h hst⟩)))
  | sti sr o =>
    obtain ⟨p, s1, hread, hnext⟩ | hend := andThen_eq_next.mp h
    · obtain rfl := Host.Outcome.next.inj hnext
      exact absurd (memRead_value_portsOnly hread).2 hst
    · exact .inr (.inr (.inl ⟨sr, o, .inr rfl, (memRead_ended hend).1⟩))
  | ldi dr o =>
    refine .inr (.inr (.inr (.inl ⟨dr, o, rfl, ?_⟩)))
    by_cases hq : ReadsHost (pcRel9 o s) s
    · exact .inl hq
    · have hload : loadFrom dr (quietWord (pcRel9 o s) s) s = .next t := by
        rwa [exec_ldi, memRead_quiet hq, andThen_value] at h
      exact .inr (loadFrom_status hload hst)
  | br n z p o =>
    obtain rfl := Host.Outcome.next.inj h
    refine absurd ?_ hst
    split <;> rfl
  | _ => obtain rfl := Host.Outcome.next.inj h; exact absurd rfl hst

/-! ### What may stand in the record of the ports (R221, R242) -/

/-- The port interactions between two states are all of one kind. -/
def AddsOnly (P : PortEvent → Prop) (s t : State) : Prop := ∃ es, t.trace = s.trace ++ es ∧ ∀ e ∈ es, P e

theorem AddsOnly.of_trace_eq {P : PortEvent → Prop} {s t : State} (h : t.trace = s.trace) : AddsOnly P s t :=
  ⟨[], by rw [h, List.append_nil], fun _ he => absurd he List.not_mem_nil⟩

theorem AddsOnly.of_event {P : PortEvent → Prop} {s t : State} {e : PortEvent} (h : t.trace = s.trace ++ [e])
    (he : P e) : AddsOnly P s t :=
  ⟨[e], h, fun _ hmem => List.mem_singleton.mp hmem ▸ he⟩

theorem AddsOnly.trans {P : PortEvent → Prop} {s t u : State} (h : AddsOnly P s t) (k : AddsOnly P t u) :
    AddsOnly P s u := by
  obtain ⟨es, ht, hes⟩ := h
  obtain ⟨fs, hu, hfs⟩ := k
  exact ⟨es ++ fs, by rw [hu, ht, List.append_assoc], fun e he => (List.mem_append.mp he).elim (hes e) (hfs e)⟩

section
variable {P : PortEvent → Prop} {s t : State}

/-- Where no output request is added, the characters emitted are as before. -/
theorem AddsOnly.output_eq (hP : ∀ c a, ¬ P (.output c a)) (h : AddsOnly P s t) : t.output = s.output := by
  obtain ⟨es, ht, hes⟩ := h
  unfold State.output
  rw [ht, List.filterMap_append, List.append_right_eq_self, List.filterMap_eq_nil_iff]
  intro e he
  match e, he with
  | .input _, _ => rfl
  | .report _ _, _ => rfl
  | .output c a, he => exact absurd (hes _ he) (hP c a)

/-- Where no report is added, the reports made are as before. -/
theorem AddsOnly.reports_eq (hP : ∀ a ir, ¬ P (.report a ir)) (h : AddsOnly P s t) : t.reports = s.reports := by
  obtain ⟨es, ht, hes⟩ := h
  unfold State.reports
  rw [ht, List.filterMap_append, List.append_right_eq_self, List.filterMap_eq_nil_iff]
  intro e he
  match e, he with
  | .input _, _ => rfl
  | .output _ _, _ => rfl
  | .report a ir, he => exact absurd (hes _ he) (hP a ir)

theorem inputRead_value_addsOnly (hin : ∀ a, P (.input a)) {c : Word} (h : inputRead s = .value c t) :
    AddsOnly P s t := by
  obtain ⟨-, rfl⟩ := inputRead_value.mp h
  exact .of_event rfl (hin _)

theorem inputRead_ended_addsOnly (hin : ∀ a, P (.input a)) (h : inputRead s = .ended t) : AddsOnly P s t := by
  obtain ⟨-, rfl⟩ | ⟨-, rfl⟩ := inputRead_ended.mp h
  · exact .of_event rfl (hin _)
  · exact .of_event rfl (hin _)

theorem memRead_value_addsOnly (hin : ∀ a, P (.input a)) {a v : Word} (h : memRead a s = .value v t) :
    AddsOnly P s t := by
  obtain ⟨-, -, rfl⟩ | ⟨-, -, -, -, -, -, -, htrace⟩ := readsTo_iff.mpr h
  · exact .of_trace_eq rfl
  · exact .of_event htrace (hin _)

theorem memRead_ended_addsOnly (hin : ∀ a, P (.input a)) {a : Word} (h : memRead a s = .ended t) : AddsOnly P s t :=
  inputRead_ended_addsOnly hin (memRead_ended h).2

theorem emit_value_addsOnly (hout : ∀ c a, P (.output c a)) {c : Byte} {u : Unit} (h : emit c s = .value u t) :
    AddsOnly P s t := by
  obtain ⟨-, -, ⟨-, -, -, htrace⟩, -⟩ := emit_value h
  exact .of_event htrace (hout _ _)

theorem emit_ended_addsOnly (hout : ∀ c a, P (.output c a)) {c : Byte} (h : emit c s = .ended t) :
    AddsOnly P s t := by
  obtain ⟨-, rfl⟩ := emit_ended h
  exact .of_event rfl (hout _ _)

theorem emitAll_value_addsOnly (hout : ∀ c a, P (.output c a)) {cs : List Byte} {u : Unit}
    (h : emitAll cs s = .value u t) : AddsOnly P s t := by
  obtain ⟨-, -, -, -, -, htrace⟩ := emitAll_value h
  refine ⟨_, htrace, fun e he => ?_⟩
  obtain ⟨c, -, rfl⟩ := List.mem_map.mp he
  exact hout c .ok

theorem emitAll_ended_addsOnly (hout : ∀ c a, P (.output c a)) {cs : List Byte} (h : emitAll cs s = .ended t) :
    AddsOnly P s t := by
  induction cs generalizing s with
  | nil => exact Access.noConfusion rfl (heq_of_eq h)
  | cons c cs ih =>
    rw [emitAll] at h
    split at h
    · next he => exact (emit_value_addsOnly hout he).trans (ih h)
    · next he => obtain rfl := Access.ended.inj h; exact emit_ended_addsOnly hout he
    · cases h

theorem scan_addsOnly (hin : ∀ a, P (.input a)) (hout : ∀ c a, P (.output c a)) {chars : Word → List Byte} {n : Nat}
    {a : Word} (h : scan chars n a s = .next t) : AddsOnly P s t := by
  induction n generalizing a s with
  | zero => cases h
  | succ n ih =>
    obtain ⟨w, s1, hread, h⟩ | hend := andThen_eq_next.mp h
    · have hadds := memRead_value_addsOnly hin hread
      split at h
      · obtain rfl := Host.Outcome.next.inj h; exact hadds
      · obtain ⟨u, s2, hemit, h⟩ | hend := andThen_eq_next.mp h
        · exact hadds.trans ((emitAll_value_addsOnly hout hemit).trans (ih h))
        · exact hadds.trans (emitAll_ended_addsOnly hout hend)
    · exact memRead_ended_addsOnly hin hend

theorem inRoutine_addsOnly (hin : ∀ a, P (.input a)) (hout : ∀ c a, P (.output c a)) (h : inRoutine s = .next t) :
    AddsOnly P s t := by
  obtain ⟨u, s1, hprompt, h⟩ | hend := andThen_eq_next.mp h
  · have hadds1 := emitAll_value_addsOnly hout hprompt
    obtain ⟨c, s2, hread, h⟩ | hend := andThen_eq_next.mp h
    · have hadds2 := hadds1.trans (inputRead_value_addsOnly hin hread)
      obtain ⟨u', s3, hecho, h⟩ | hend := andThen_eq_next.mp h
      · obtain rfl := Host.Outcome.next.inj h
        exact hadds2.trans (emit_value_addsOnly (s := s2.setReg .r0 c) hout hecho)
      · exact hadds2.trans (emit_ended_addsOnly (s := s2.setReg .r0 c) hout hend)
    · exact hadds1.trans (inputRead_ended_addsOnly hin hend)
  · exact emitAll_ended_addsOnly hout hend

/-- A TRAP adds input and output requests alone. -/
theorem trap_addsOnly (hin : ∀ a, P (.input a)) (hout : ∀ c a, P (.output c a)) {v : BitVec 8}
    (h : exec (.trap v) s = .next t) : AddsOnly P s t := by
  have henter : AddsOnly P s (enterTrap s) := .of_trace_eq rfl
  refine henter.trans ?_
  obtain ⟨-, hexec⟩ | ⟨-, hexec⟩ | ⟨-, chars, -, hexec⟩ | ⟨-, hexec⟩ | ⟨st, hexec⟩ := trap_routine v
  case inl =>
    obtain ⟨c, s1, hread, h⟩ | hend := andThen_eq_next.mp ((hexec s).symm.trans h)
    · obtain rfl := Host.Outcome.next.inj h
      exact (inputRead_value_addsOnly hin hread).trans (.of_trace_eq rfl)
    · exact inputRead_ended_addsOnly hin hend
  case inr.inl =>
    obtain ⟨u, s1, hemit, h⟩ | hend := andThen_eq_next.mp ((hexec s).symm.trans h)
    · obtain rfl := Host.Outcome.next.inj h
      exact emit_value_addsOnly hout hemit
    · exact emit_ended_addsOnly hout hend
  case inr.inr.inl => exact scan_addsOnly hin hout ((hexec s).symm.trans h)
  case inr.inr.inr.inl => exact inRoutine_addsOnly hin hout ((hexec s).symm.trans h)
  case inr.inr.inr.inr =>
    obtain rfl := Host.Outcome.next.inj ((hexec s).symm.trans h)
    exact .of_trace_eq rfl

theorem loadFrom_addsOnly (hin : ∀ a, P (.input a)) {dr : Reg} {a : Word} (h : loadFrom dr a s = .next t) :
    AddsOnly P s t := by
  obtain ⟨v, s1, hread, rfl⟩ | hend := loadFrom_next h
  · exact (memRead_value_addsOnly hin hread).trans (.of_trace_eq rfl)
  · exact memRead_ended_addsOnly hin hend

/-- Everything an instruction can add to the record: input requests; output requests, if it is a TRAP; a report, if it
is the unassigned opcode. -/
theorem exec_addsOnly {i : Instr} (hin : ∀ a, P (.input a)) (hout : ∀ v, i = .trap v → ∀ c a, P (.output c a))
    (hrep : ∀ x, i = .unassigned x → ∀ a ir, P (.report a ir)) (h : exec i s = .next t) : AddsOnly P s t := by
  cases i with
  | trap v => exact trap_addsOnly hin (hout v rfl) h
  | unassigned x => obtain rfl := Host.Outcome.next.inj h; exact .of_event rfl (hrep x rfl _ _)
  | ld dr o => exact loadFrom_addsOnly hin h
  | ldr dr b o => exact loadFrom_addsOnly hin h
  | ldi dr o =>
    obtain ⟨p, s1, hread, hload⟩ | hend := andThen_eq_next.mp h
    · exact (memRead_value_addsOnly hin hread).trans (loadFrom_addsOnly hin hload)
    · exact memRead_ended_addsOnly hin hend
  | sti sr o =>
    obtain ⟨p, s1, hread, hnext⟩ | hend := andThen_eq_next.mp h
    · obtain rfl := Host.Outcome.next.inj hnext
      exact (memRead_value_addsOnly hin hread).trans (.of_trace_eq rfl)
    · exact memRead_ended_addsOnly hin hend
  | br n z p o =>
    obtain rfl := Host.Outcome.next.inj h
    exact .of_trace_eq (by split <;> rfl)
  | _ => obtain rfl := Host.Outcome.next.inj h; exact .of_trace_eq rfl

end

/-- Settles O47: no instruction but TRAP adds an output request, and none but the unassigned opcode a report. -/
theorem outputOnlyThroughTrap : Obligations.OutputOnlyThroughTrap := by
  intro i s t h
  constructor
  · intro hi
    refine (exec_addsOnly (P := fun e => ∀ c a, e ≠ .output c a) ?_ ?_ ?_ h).output_eq fun c a hne => hne c a rfl
    · exact fun _ _ _ => PortEvent.noConfusion
    · exact fun v hv => absurd hv (hi v)
    · exact fun _ _ _ _ _ _ => PortEvent.noConfusion
  · intro hi
    refine (exec_addsOnly (P := fun e => ∀ a ir, e ≠ .report a ir) ?_ ?_ ?_ h).reports_eq fun a ir hne => hne a ir rfl
    · exact fun _ _ _ => PortEvent.noConfusion
    · exact fun _ _ _ _ _ _ => PortEvent.noConfusion
    · exact fun x hx => absurd hx (hi x)

end Sys2Proof.Machine
end

section
/-!
PROOFS. Noninterference of the hidden backing cells (R43, decision D4): a relation between two states that differ at
most in them, which every operation and so every instruction and every step keeps.
-/

namespace Sys2Proof.Machine

/-! ### The relation -/

/-- Two canonical memories that read alike outside the device addresses. -/
def AgreeOffCells (c : Config) (m n : Memory) : Prop :=
  m.wf = true ∧ n.wf = true ∧ ∀ a, a ≠ c.devStatusAddr → a ≠ c.devDataAddr → n.read a = m.read a

/-- The second state is the first with a memory that differs at most in the backing cells. -/
def Twin (s s' : State) : Prop := ∃ m, AgreeOffCells s.cfg s.mem m ∧ s' = s.setMem m

/-- For canonical memories the relation is that of R43. -/
theorem twin_iff {s s' : State} :
    Twin s s' ↔ s.mem.wf = true ∧ s'.mem.wf = true ∧ AgreeOffDevices s s' := by
  constructor
  · rintro ⟨m, ⟨hwf, hwf', hread⟩, rfl⟩
    exact ⟨hwf, hwf', rfl, rfl, rfl, rfl, rfl, ⟨rfl, rfl, rfl, rfl⟩, hread⟩
  · rintro ⟨hwf, hwf', hregs, hpc, hpsr, hstatus, hcfg, ⟨hchars, hafter, hfails, htrace⟩, hread⟩
    refine ⟨s'.mem, ⟨hwf, hwf', hread⟩, ?_⟩
    cases s'
    cases s
    simp only [State.setMem] at *
    subst_vars
    rfl

/-- An operation that neither reads nor writes memory or parameters keeps the relation. -/
theorem Twin.map {s s' : State} (h : Twin s s') (f : State → State) (hf : ∀ s m, f (s.setMem m) = (f s).setMem m)
    (hmem : (f s).mem = s.mem) (hcfg : (f s).cfg = s.cfg) : Twin (f s) (f s') := by
  obtain ⟨m, hm, rfl⟩ := h
  exact ⟨m, by rwa [hmem, hcfg], hf s m⟩

/-- What an observation that reads no memory sees is the same in both. -/
theorem Twin.view_eq {α : Type} {s s' : State} (h : Twin s s') (g : State → α) (hg : ∀ s m, g (s.setMem m) = g s) :
    g s' = g s := by
  obtain ⟨m, -, rfl⟩ := h
  exact hg s m

/-- The same store in both keeps the relation, at a device address too (R56). -/
theorem memWrite_twin {s s' : State} (h : Twin s s') (a v : Word) : Twin (memWrite a v s) (memWrite a v s') := by
  obtain ⟨m, ⟨hwf, hwf', hread⟩, rfl⟩ := h
  refine ⟨m.write a v, ⟨Memory.write_wf hwf a v, Memory.write_wf hwf' a v, fun b hs hd => ?_⟩, rfl⟩
  rw [memWrite_mem, Memory.read_write hwf, Memory.read_write hwf', hread b hs hd]

/-- Two requests that come to the same value, end or stop, in related states. -/
inductive AccessTwin {α : Type} : Access α → Access α → Prop where
  | value {s s' : State} (a : α) (h : Twin s s') : AccessTwin (.value a s) (.value a s')
  | ended {s s' : State} (h : Twin s s') : AccessTwin (.ended s) (.ended s')
  | stuck (f : Fault) : AccessTwin (.stuck f) (.stuck f)

/-- Two outcomes that are next states in the relation, or the same fault. -/
inductive ResultTwin : Result → Result → Prop where
  | next {s s' : State} (h : Twin s s') : ResultTwin (.next s) (.next s')
  | fault (f : Fault) : ResultTwin (.fault f) (.fault f)

theorem AccessTwin.andThen {α : Type} {r r' : Access α} {k k' : α → State → Result} (h : AccessTwin r r')
    (hk : ∀ a s s', Twin s s' → ResultTwin (k a s) (k' a s')) : ResultTwin (r.andThen k) (r'.andThen k') := by
  cases h with
  | value a h => exact hk a _ _ h
  | ended h => exact .next h
  | stuck f => exact .fault f

/-! ### The operations keep it -/

section
variable {s s' : State}

theorem inputRead_twin (h : Twin s s') : AccessTwin (inputRead s) (inputRead s') := by
  have hchar : ∀ a, Twin (consumeInput a s) (consumeInput a s') := fun a =>
    h.map (consumeInput a) (fun _ _ => rfl) rfl rfl
  have hanswer : nextAnswer s' = nextAnswer s := h.view_eq nextAnswer fun _ _ => rfl
  unfold inputRead
  rw [hanswer]
  match nextAnswer s with
  | none => exact .stuck _
  | some (.char c) => exact .value c (hchar _)
  | some .endOfInput => exact .ended ((hchar _).map (terminate _) (fun _ _ => rfl) rfl rfl)
  | some .ioFailure => exact .ended ((hchar _).map (raiseFatal _) (fun _ _ => rfl) rfl rfl)

/-- A read consults storage only outside the device addresses (R53). -/
theorem memRead_twin (h : Twin s s') (a : Word) : AccessTwin (memRead a s) (memRead a s') := by
  have hinput := inputRead_twin h
  obtain ⟨m, ⟨hwf, hwf', hread⟩, rfl⟩ := h
  have htwin : Twin s (s.setMem m) := ⟨m, ⟨hwf, hwf', hread⟩, rfl⟩
  unfold memRead
  rw [setMem_cfg, setMem_mem]
  split
  · exact .value _ htwin
  · next hs =>
    split
    · exact hinput
    · next hd => rw [hread a hs hd]; exact .value _ htwin

theorem emit_twin (h : Twin s s') (c : Byte) : AccessTwin (emit c s) (emit c s') := by
  have hfails : s'.outputFailsAfter = s.outputFailsAfter := h.view_eq State.outputFailsAfter fun _ _ => rfl
  unfold emit
  rw [hfails]
  match s.outputFailsAfter with
  | none => exact .value _ (h.map (State.record · _) (fun _ _ => rfl) rfl rfl)
  | some 0 => exact .ended (h.map (fun s => raiseFatal _ (s.record _)) (fun _ _ => rfl) rfl rfl)
  | some (n + 1) => exact .value _ (h.map (fun s => (s.setOutputFailsAfter _).record _) (fun _ _ => rfl) rfl rfl)

theorem emitAll_twin (h : Twin s s') (cs : List Byte) : AccessTwin (emitAll cs s) (emitAll cs s') := by
  induction cs generalizing s s' with
  | nil => exact .value _ h
  | cons c cs ih =>
    have he := emit_twin h c
    unfold emitAll
    generalize emit c s = r, emit c s' = r' at he ⊢
    cases he with
    | value u h1 => exact ih h1
    | ended h1 => exact .ended h1
    | stuck f => exact .stuck f

theorem scan_twin (h : Twin s s') (chars : Word → List Byte) (n : Nat) (a : Word) :
    ResultTwin (scan chars n a s) (scan chars n a s') := by
  induction n generalizing a s s' with
  | zero => exact .fault _
  | succ n ih =>
    rw [scan_succ, scan_succ]
    refine (memRead_twin h a).andThen fun w s1 s1' h1 => ?_
    split
    · exact .next h1
    · exact (emitAll_twin h1 (chars w)).andThen fun _ s2 s2' h2 => ih h2 (a + 1)

theorem writeResult_twin (h : Twin s s') (dr : Reg) (v : Word) : Twin (writeResult dr v s) (writeResult dr v s') :=
  h.map (writeResult dr v) (fun _ _ => rfl) rfl rfl

theorem loadFrom_twin (h : Twin s s') (dr : Reg) (a : Word) : ResultTwin (loadFrom dr a s) (loadFrom dr a s') :=
  (memRead_twin h a).andThen fun v _ _ h1 => .next (writeResult_twin h1 dr v)

theorem inRoutine_twin (h : Twin s s') : ResultTwin (inRoutine s) (inRoutine s') := by
  have hprompt : s'.cfg.inPrompt = s.cfg.inPrompt := h.view_eq (·.cfg.inPrompt) fun _ _ => rfl
  unfold inRoutine
  rw [hprompt]
  refine (emitAll_twin h _).andThen fun _ s1 s1' h1 => (inputRead_twin h1).andThen fun c s2 s2' h2 => ?_
  have h3 : Twin (s2.setReg .r0 c) (s2'.setReg .r0 c) := h2.map (State.setReg · .r0 c) (fun _ _ => rfl) rfl rfl
  exact (emit_twin h3 _).andThen fun _ _ _ h4 => .next h4

theorem trap_twin (h : Twin s s') (v : BitVec 8) : ResultTwin (exec (.trap v) s) (exec (.trap v) s') := by
  have henter : Twin (enterTrap s) (enterTrap s') := h.map enterTrap (fun _ _ => rfl) rfl rfl
  have hr0 : s'.reg .r0 = s.reg .r0 := h.view_eq (State.reg · .r0) fun _ _ => rfl
  obtain ⟨-, hexec⟩ | ⟨-, hexec⟩ | ⟨-, chars, -, hexec⟩ | ⟨-, hexec⟩ | ⟨st, hexec⟩ := trap_routine v
  case inl =>
    rw [hexec, hexec]
    exact (inputRead_twin henter).andThen fun c _ _ h1 => .next (h1.map (State.setReg · .r0 c) (fun _ _ => rfl) rfl rfl)
  case inr.inl =>
    rw [hexec, hexec, hr0]
    exact (emit_twin henter _).andThen fun _ _ _ h1 => .next h1
  case inr.inr.inl =>
    have hbound : scanBound (enterTrap s') = scanBound (enterTrap s) := henter.view_eq scanBound fun _ _ => rfl
    rw [hexec, hexec, hr0, hbound]
    exact scan_twin henter chars _ _
  case inr.inr.inr.inl =>
    rw [hexec, hexec]
    exact inRoutine_twin henter
  case inr.inr.inr.inr =>
    rw [hexec, hexec]
    exact .next (henter.map (State.setStatus · st) (fun _ _ => rfl) rfl rfl)

/-! ### The instructions and the step keep it -/

theorem exec_twin (h : Twin s s') (i : Instr) : ResultTwin (exec i s) (exec i s') := by
  have hreg : ∀ r, s'.reg r = s.reg r := fun r => h.view_eq (State.reg · r) fun _ _ => rfl
  have hpc : s'.pc = s.pc := h.view_eq State.pc fun _ _ => rfl
  have hpcRel9 : ∀ o, pcRel9 o s' = pcRel9 o s := fun o => congrArg (· + sext o) hpc
  have hbaseOff6 : ∀ b o, baseOff6 b o s' = baseOff6 b o s := fun b o => congrArg (· + sext o) (hreg b)
  cases i with
  | addReg dr sr1 sr2 => exact .next (by rw [hreg, hreg]; exact writeResult_twin h _ _)
  | addImm dr sr1 imm5 => exact .next (by rw [hreg]; exact writeResult_twin h _ _)
  | andReg dr sr1 sr2 => exact .next (by rw [hreg, hreg]; exact writeResult_twin h _ _)
  | andImm dr sr1 imm5 => exact .next (by rw [hreg]; exact writeResult_twin h _ _)
  | not dr sr => exact .next (by rw [hreg]; exact writeResult_twin h _ _)
  | lea dr o => exact .next (by rw [hpcRel9]; exact writeResult_twin h _ _)
  | br n z p o =>
    refine .next ?_
    have hpsr : s'.psr = s.psr := h.view_eq State.psr fun _ _ => rfl
    rw [hpsr, hpcRel9]
    split
    · exact h.map (State.setPc · (pcRel9 o s)) (fun _ _ => rfl) rfl rfl
    · exact h
  | jmp b => exact .next (h.map (jumpThrough b) (fun _ _ => rfl) rfl rfl)
  | ret => exact .next (h.map (jumpThrough .r7) (fun _ _ => rfl) rfl rfl)
  | jsr o => exact .next (h.map (fun s => (link s).setPc (pcRel11 o s)) (fun _ _ => rfl) rfl rfl)
  | jsrr b => exact .next (h.map (fun s => jumpThrough b (link s)) (fun _ _ => rfl) rfl rfl)
  | ld dr o => rw [exec_ld, exec_ld, hpcRel9]; exact loadFrom_twin h _ _
  | ldr dr b o => rw [exec_ldr, exec_ldr, hbaseOff6]; exact loadFrom_twin h _ _
  | ldi dr o =>
    rw [exec_ldi, exec_ldi, hpcRel9]
    exact (memRead_twin h _).andThen fun p _ _ h1 => loadFrom_twin h1 dr p
  | st sr o => exact .next (by rw [hpcRel9, hreg]; exact memWrite_twin h _ _)
  | str sr b o => exact .next (by rw [hbaseOff6, hreg]; exact memWrite_twin h _ _)
  | sti sr o =>
    rw [exec_sti, exec_sti, hpcRel9]
    refine (memRead_twin h _).andThen fun p s1 s1' h1 => .next ?_
    have hreg1 : s1'.reg sr = s1.reg sr := h1.view_eq (State.reg · sr) fun _ _ => rfl
    rw [hreg1]
    exact memWrite_twin h1 _ _
  | rti => exact .next (h.map (raiseFatal _) (fun _ _ => rfl) rfl rfl)
  | trap v => exact trap_twin h v
  | unassigned x =>
    exact .next (h.map (fun s => reportUnknownOpcode (s.pc - 1) _ s) (fun _ _ => rfl) rfl rfl)

theorem fetch_twin (h : Twin s s') : AccessTwin (fetch s) (fetch s') := by
  have hpc : s'.pc = s.pc := h.view_eq State.pc fun _ _ => rfl
  unfold fetch
  rw [hpc]
  have hread := memRead_twin h s.pc
  generalize memRead s.pc s = r, memRead s.pc s' = r' at hread ⊢
  cases hread with
  | value ir h1 => exact .value ir (h1.map (fun s => s.setPc (s.pc + 1)) (fun _ _ => rfl) rfl rfl)
  | ended h1 => exact .ended h1
  | stuck f => exact .stuck f

theorem step_twin (h : Twin s s') : ResultTwin (step s) (step s') := by
  have hstatus : s'.status = s.status := h.view_eq State.status fun _ _ => rfl
  unfold step
  rw [hstatus]
  split
  · exact (fetch_twin h).andThen fun ir _ _ h1 => exec_twin h1 (decode ir)
  · exact .next h

end

/-- Settles O10: a step keeps the relation. -/
theorem backingCellsAreUnobservable : Obligations.BackingCellsAreUnobservable := by
  intro s s' hwf hwf' hagree
  have hstep := step_twin (twin_iff.mpr ⟨hwf, hwf', hagree⟩)
  constructor
  · intro t ht
    rw [ht] at hstep
    generalize step s' = r' at hstep ⊢
    cases hstep with
    | next htwin => exact ⟨_, rfl, (twin_iff.mp htwin).2.2⟩
  · intro f hf
    rw [hf] at hstep
    generalize step s' = r' at hstep ⊢
    cases hstep with
    | fault => rfl

end Sys2Proof.Machine
end

section
/-!
PROOFS. The scans of PUTS and PUTSP (R192, R196): what a string does to them, and that their bound cuts none short (U9,
log 6).

The one idea: a scan that comes to the bound has turned once more round the address space after the host's listed
characters were used up, and has emitted more characters than a failing host accepts. So it runs in a state in which no
word, no answer and no emission can end any scan (`NeverStops`).
-/

namespace Sys2Proof.Machine

/-! ### What a request keeps -/

/-- A read from plain storage (R53). -/
theorem memRead_storage {a : Word} {s : State} (hs : a ≠ s.cfg.devStatusAddr) (hd : a ≠ s.cfg.devDataAddr) :
    memRead a s = .value (s.mem.read a) s := by
  rw [memRead, if_neg hs, if_neg hd]

/-- Where a read asks the host depends on the parameters alone. -/
theorem PortsOnly.readsHost_iff {s t : State} (h : PortsOnly s t) (a : Word) : ReadsHost a t ↔ ReadsHost a s := by
  obtain ⟨-, -, -, -, hcfg, -⟩ := h
  rw [ReadsHost, ReadsHost, hcfg]

/-- What a read answers by itself depends on memory and the parameters alone. -/
theorem PortsOnly.quietWord_eq {s t : State} (h : PortsOnly s t) (a : Word) : quietWord a t = quietWord a s := by
  obtain ⟨-, -, -, hmem, hcfg, -⟩ := h
  rw [quietWord, quietWord, hcfg, hmem]

/-- A read changes neither what the host does after its listed characters, nor its answers to output requests. -/
theorem ReadsTo.host_eq {a v : Word} {s s1 : State} (h : ReadsTo a s v s1) :
    s1.inputAfter = s.inputAfter ∧ s1.outputFailsAfter = s.outputFailsAfter := by
  obtain ⟨-, -, rfl⟩ | ⟨-, -, -, -, -, hafter, hfails, -⟩ := h
  · exact ⟨rfl, rfl⟩
  · exact ⟨hafter, hfails⟩

/-- The host's answer depends on its listed characters and what it does after them. -/
theorem nextAnswer_congr {s t : State} (hchars : t.inputChars = s.inputChars) (hafter : t.inputAfter = s.inputAfter) :
    nextAnswer t = nextAnswer s := by
  rw [nextAnswer, nextAnswer, hchars, hafter]

theorem nextAnswer_of_cons {s : State} {c : Word} {cs : List Word} (h : s.inputChars = c :: cs) :
    nextAnswer s = some (.char c) := by
  rw [nextAnswer, h]

/-- Once the listed characters are used up, only a host that answers one character for ever answers a character. -/
theorem inputAfter_of_nextAnswer_char {s : State} {c : Word} (h : s.inputChars = [])
    (hc : nextAnswer s = some (.char c)) : s.inputAfter = .forever c := by
  rw [nextAnswer, h] at hc
  cases hafter : s.inputAfter with
  | forever d => simp only [hafter, Option.some.injEq, InputAnswer.char.injEq] at hc; rw [hc]
  | _ => simp [hafter] at hc

/-- No answer comes only from a host that never answers (R245). -/
theorem inputAfter_of_nextAnswer_none {s : State} (h : nextAnswer s = none) : s.inputAfter = .never := by
  cases hchars : s.inputChars with
  | cons c cs => rw [nextAnswer_of_cons hchars] at h; cases h
  | nil =>
    rw [nextAnswer, hchars] at h
    cases hafter : s.inputAfter with
    | never => rfl
    | _ => simp [hafter] at h

/-! ### Scans and their bound -/

/-- The address `i + 1` words on is `i` words on from the next (R52). -/
theorem add_ofNat_succ (a : Word) (i : Nat) : a + BitVec.ofNat 16 (i + 1) = a + 1 + BitVec.ofNat 16 i := by
  rw [BitVec.add_assoc, Nat.add_comm i 1, BitVec.ofNat_add]
  rfl

section
variable {chars : Word → List Byte} {n : Nat} {a : Word} {s : State}

/-- A longer bound changes no scan that comes to an end, whatever the end. -/
theorem scan_add {r : Result} (h : scan chars n a s = r) (hr : r ≠ .fault .scanNeverEnds) (k : Nat) :
    scan chars (n + k) a s = r := by
  induction n generalizing a s with
  | zero => exact absurd h.symm hr
  | succ n ih =>
    rw [Nat.add_right_comm, scan_succ]
    rw [scan_succ] at h
    cases hread : memRead a s with
    | ended t => rwa [hread] at h
    | stuck f => rwa [hread] at h
    | value w s1 =>
      rw [hread, andThen_value] at h
      rw [andThen_value]
      split at h
      · next hw => rwa [if_pos hw]
      · next hw =>
        rw [if_neg hw]
        cases hemit : emitAll (chars w) s1 with
        | ended t => rwa [hemit] at h
        | stuck f => rwa [hemit] at h
        | value u s2 =>
          rw [hemit, andThen_value] at h
          exact ih h

/-- A scan that comes to its bound has read one nonzero word, emitted its characters, and gone on. -/
theorem scan_hang_succ (h : scan chars (n + 1) a s = .fault .scanNeverEnds) :
    ∃ w s1 s2, ReadsTo a s w s1 ∧ w ≠ 0 ∧ emitAll (chars w) s1 = .value () s2 ∧
      scan chars n (a + 1) s2 = .fault .scanNeverEnds := by
  obtain ⟨w, s1, hread, h⟩ | hstuck := andThen_eq_fault.mp h
  · split at h
    · cases h
    · next hw =>
      obtain ⟨u, s2, hemit, h⟩ | hstuck := andThen_eq_fault.mp h
      · exact ⟨w, s1, s2, readsTo_iff.mpr hread, hw, hemit, h⟩
      · exact absurd hstuck (emitAll_ne_stuck _ _ _)
  · obtain ⟨-, -, hf⟩ := memRead_stuck hstuck
    cases hf

/-- What such a turn of the loop keeps: memory and parameters, and what the host does after its listed characters. -/
theorem scan_turn_keeps {w : Word} {s1 s2 : State} (hread : ReadsTo a s w s1)
    (hemit : emitAll (chars w) s1 = .value () s2) :
    PortsOnly s s2 ∧ s2.inputAfter = s.inputAfter ∧ s2.inputChars = s1.inputChars ∧
      s2.outputFailsAfter = s.outputFailsAfter.map (· - (chars w).length) := by
  obtain ⟨hports, -, hchars, hafter, hfails, -⟩ := emitAll_value hemit
  obtain ⟨hafter1, hfails1⟩ := hread.host_eq
  exact ⟨(memRead_value_portsOnly (readsTo_iff.mp hread)).1.trans hports, hafter.trans hafter1, hchars,
    by rw [hfails, hfails1]⟩

/-- A scan that comes to its bound has emitted at least one character a word. -/
theorem scan_hang_output (hne : ∀ w, chars w ≠ []) (h : scan chars n a s = .fault .scanNeverEnds) {k : Nat}
    (hk : s.outputFailsAfter = some k) : n ≤ k := by
  induction n generalizing a s k with
  | zero => exact Nat.zero_le k
  | succ n ih =>
    obtain ⟨w, s1, s2, hread, -, hemit, hrest⟩ := scan_hang_succ h
    have hlen : 0 < (chars w).length := List.length_pos_iff.mpr (hne w)
    have hle : (chars w).length ≤ k := by
      by_contra hlt
      obtain ⟨t, hend, -⟩ := emitAll_fails (Nat.not_le.mp hlt) (hread.host_eq.2.trans hk)
      rw [hend] at hemit
      cases hemit
    obtain ⟨-, -, -, hfails⟩ := scan_turn_keeps hread hemit
    have := ih hrest (k := k - (chars w).length) (by rw [hfails, hk]; rfl)
    omega

/-- A scan that comes to its bound has met no zero word that a read answers by itself. -/
theorem scan_hang_quietWord (h : scan chars n a s = .fault .scanNeverEnds) {i : Nat} (hi : i < n)
    (hq : ¬ ReadsHost (a + BitVec.ofNat 16 i) s) : quietWord (a + BitVec.ofNat 16 i) s ≠ 0 := by
  induction n generalizing a s i with
  | zero => omega
  | succ n ih =>
    obtain ⟨w, s1, s2, hread, hw, hemit, hrest⟩ := scan_hang_succ h
    cases i with
    | zero =>
      rw [BitVec.add_zero] at hq ⊢
      obtain ⟨-, rfl, -⟩ | ⟨hhost, -⟩ := hread
      · exact hw
      · exact absurd hhost hq
    | succ i =>
      obtain ⟨hports, -⟩ := scan_turn_keeps hread hemit
      rw [add_ofNat_succ] at hq ⊢
      rw [← hports.quietWord_eq]
      exact ih hrest (Nat.lt_of_succ_lt_succ hi) (mt (hports.readsHost_iff _).mp hq)

/-- A scan that comes to its bound, and has passed the data register once more than the host has characters listed, has
used them up and met a host that answers a nonzero character for ever. -/
theorem scan_hang_input {d : Word} (h : scan chars n a s = .fault .scanNeverEnds) (hd : ReadsHost d s)
    (hn : (d - a).toNat + 0x10000 * s.inputChars.length < n) :
    (∀ c ∈ s.inputChars, c ≠ 0) ∧ ∃ c, c ≠ 0 ∧ s.inputAfter = .forever c := by
  induction n generalizing a s with
  | zero => omega
  | succ n ih =>
    obtain ⟨w, s1, s2, hread, hw, hemit, hrest⟩ := scan_hang_succ h
    obtain ⟨hports, hafter, hchars, -⟩ := scan_turn_keeps hread hemit
    have hd2 : ReadsHost d s2 := (hports.readsHost_iff d).mpr hd
    rw [← hafter]
    obtain ⟨hquiet, -, rfl⟩ | ⟨hhost, hanswer, -, -, htail, -⟩ := hread
    · have hda : d ≠ a := fun e => hquiet (e ▸ hd)
      rw [← hchars] at hn ⊢
      exact ih hrest hd2 (by bv_omega)
    · obtain rfl : d = a := hd.2.trans hhost.2.symm
      rw [BitVec.sub_self] at hn
      cases hlist : s.inputChars with
      | nil =>
        exact ⟨fun _ hc => absurd hc List.not_mem_nil, w, hw,
          hafter.trans (inputAfter_of_nextAnswer_char hlist hanswer)⟩
      | cons c cs =>
        obtain rfl : c = w := InputAnswer.char.inj (Option.some.inj ((nextAnswer_of_cons hlist).symm.trans hanswer))
        have hlist2 : s2.inputChars = cs := by rw [hchars, htail, hlist]; rfl
        have hdist : (d - (d + 1)).toNat = 0xFFFF := by bv_omega
        rw [hlist, List.length_cons] at hn
        have hnext := ih hrest hd2 (by rw [hdist, hlist2]; omega)
        rw [hlist2] at hnext
        exact ⟨List.forall_mem_cons.mpr ⟨hw, hnext.1⟩, hnext.2⟩

/-! ### States in which no scan ends -/

/-- Nothing can end a scan: no failing output, no zero word that a read answers by itself, and, where a read asks the
host, nonzero characters for ever. -/
def NeverStops (s : State) : Prop :=
  s.outputFailsAfter = none ∧ (∀ a, ¬ ReadsHost a s → quietWord a s ≠ 0) ∧
    ∀ d, ReadsHost d s → (∀ c ∈ s.inputChars, c ≠ 0) ∧ ∃ c, c ≠ 0 ∧ s.inputAfter = .forever c

/-- A scan that comes to the model's bound runs in such a state (log 6). -/
theorem neverStops_of_scan_hang (hne : ∀ w, chars w ≠ [])
    (h : scan chars (scanBound s) a s = .fault .scanNeverEnds) : NeverStops s := by
  have hbound : scanBound s = 0x10000 * (s.inputChars.length + 2) + s.outputFailsAfter.getD 0 + 1 := rfl
  refine ⟨?_, fun b hb => ?_, fun d hd => scan_hang_input h hd ?_⟩
  · cases hf : s.outputFailsAfter with
    | none => rfl
    | some k =>
      have hle := scan_hang_output hne h hf
      rw [hf, Option.getD_some] at hbound
      omega
  · have haddr : a + BitVec.ofNat 16 (b - a).toNat = b := by
      rw [BitVec.ofNat_toNat, BitVec.setWidth_eq, BitVec.add_comm, BitVec.sub_add_cancel]
    have hlt : (b - a).toNat < scanBound s := by have := (b - a).isLt; omega
    have hword := scan_hang_quietWord h hlt
    rw [haddr] at hword
    exact hword hb
  · have := (d - a).isLt
    omega

/-- In such a state a read answers a nonzero word, and leaves such a state. -/
theorem NeverStops.memRead_value (h : NeverStops s) (a : Word) :
    ∃ w s1, memRead a s = .value w s1 ∧ w ≠ 0 ∧ NeverStops s1 := by
  obtain ⟨hfails, hquiet, hhost⟩ := h
  by_cases hq : ReadsHost a s
  · obtain ⟨hlisted, c, hc, hafter⟩ := hhost a hq
    obtain ⟨w, hanswer, hw⟩ : ∃ w, nextAnswer s = some (.char w) ∧ w ≠ 0 := by
      cases hchars : s.inputChars with
      | nil => exact ⟨c, by rw [nextAnswer, hchars, hafter], hc⟩
      | cons w ws => exact ⟨w, nextAnswer_of_cons hchars, hlisted w (hchars ▸ List.mem_cons_self)⟩
    refine ⟨w, _, (memRead_data hq).trans (inputRead_value.mpr ⟨hanswer, rfl⟩), hw, hfails, hquiet, fun d hd => ?_⟩
    exact ⟨fun x hx => hlisted x (List.mem_of_mem_tail hx), c, hc, hafter⟩
  · exact ⟨_, s, memRead_quiet hq, hquiet a hq, hfails, hquiet, hhost⟩

/-- In such a state every emission succeeds, and leaves such a state. -/
theorem NeverStops.emitAll_value (h : NeverStops s) (cs : List Byte) :
    ∃ s1, emitAll cs s = .value () s1 ∧ NeverStops s1 := by
  obtain ⟨hfails, hquiet, hhost⟩ := h
  have haccepts : AcceptsOutput cs.length s := fun k hk => absurd (hfails.symm.trans hk) (Option.some_ne_none k).symm
  obtain ⟨s1, hemit, ⟨hchars, hafter, hfails1, -⟩, hports, -⟩ := emitAll_accepted haccepts
  refine ⟨s1, hemit, by rw [hfails1, hfails]; rfl, fun b hb => ?_, fun d hd => ?_⟩
  · rw [hports.quietWord_eq]
    exact hquiet b (mt (hports.readsHost_iff b).mpr hb)
  · rw [hchars, hafter]
    exact hhost d ((hports.readsHost_iff d).mp hd)

/-- In such a state no scan ends, whatever its bound. -/
theorem NeverStops.scan_hangs (h : NeverStops s) (chars : Word → List Byte) (n : Nat) (a : Word) :
    scan chars n a s = .fault .scanNeverEnds := by
  induction n generalizing a s with
  | zero => rfl
  | succ n ih =>
    obtain ⟨w, s1, hread, hw, h1⟩ := h.memRead_value a
    obtain ⟨s2, hemit, h2⟩ := h1.emitAll_value (chars w)
    rw [scan_succ, hread, andThen_value, if_neg hw, hemit, andThen_value]
    exact ih h2 (a + 1)

/-- The model's bound changes no scan that comes to an end under some bound (log 6). -/
theorem scan_scanBound (hne : ∀ w, chars w ≠ []) {r : Result} (h : scan chars n a s = r)
    (hr : r ≠ .fault .scanNeverEnds) : scan chars (scanBound s) a s = r := by
  have hbound : scan chars (scanBound s) a s ≠ .fault .scanNeverEnds := fun hhang =>
    hr (h.symm.trans ((neverStops_of_scan_hang hne hhang).scan_hangs chars n a))
  rw [← scan_add rfl hbound n, Nat.add_comm, scan_add h hr]

end

/-! ### PUTS and PUTSP -/

/-- The model's characters of a PUTSP word are the spec's (R196). -/
theorem putspChars_eq : putspChars = packedChars := by
  funext w
  rw [putspChars, packedChars, highByte]
  split <;> rfl

/-- The bounded scan comes to a next state exactly when the spec's loop does. -/
theorem scan_scanBound_next_iff {chars : Word → List Byte} (hne : ∀ w, chars w ≠ []) {a : Word} {s t : State} :
    scan chars (scanBound s) a s = .next t ↔ ScanRuns chars a s t := by
  rw [scanRuns_iff]
  exact ⟨fun h => ⟨_, h⟩, fun ⟨n, h⟩ => scan_scanBound hne h nofun⟩

/-- The bounded scan is held exactly when the spec's loop is (R245). -/
theorem scan_scanBound_holds_iff {chars : Word → List Byte} (hne : ∀ w, chars w ≠ []) {a : Word} {s : State} :
    scan chars (scanBound s) a s = .fault .inputNeverAnswered ↔ ScanHolds chars a s := by
  rw [scanHolds_iff]
  exact ⟨fun h => ⟨_, h⟩, fun ⟨n, h⟩ => scan_scanBound hne h nofun⟩

/-- Settles O37: the bound changes no scan that comes to an end. -/
theorem boundedScansAreTheSpecsLoops : Obligations.BoundedScansAreTheSpecsLoops := by
  intro s t
  rw [exec_trap_puts, exec_trap_putsp, scan_scanBound_next_iff putsChars_ne_nil,
    scan_scanBound_next_iff putspChars_ne_nil, putspChars_eq]
  exact ⟨Iff.rfl, Iff.rfl⟩

/-! ### Strings -/

/-- The words of a string are as before where only the ports changed. -/
theorem WordsAt.of_portsOnly {a : Word} {ws : List Word} {s t : State} (h : WordsAt a ws s) (hp : PortsOnly s t) :
    WordsAt a ws t := by
  obtain ⟨-, -, -, hmem, hcfg, -⟩ := hp
  rw [WordsAt, hmem, hcfg]
  exact h

/-- The first word of a string is read from storage. -/
theorem WordsAt.memRead_first {a w : Word} {ws : List Word} {s : State} (h : WordsAt a (w :: ws) s) :
    memRead a s = .value w s := by
  have h0 := h 0 (Nat.succ_pos _)
  rw [BitVec.add_zero] at h0
  obtain ⟨hs, hd, hw⟩ := h0
  rw [memRead_storage hs hd, hw]
  rfl

/-- The rest of a string stands at the next address. -/
theorem WordsAt.tail {a w : Word} {ws : List Word} {s : State} (h : WordsAt a (w :: ws) s) : WordsAt (a + 1) ws s := by
  intro i hi
  have hnext := h (i + 1) (Nat.succ_lt_succ hi)
  simp only [add_ofNat_succ, List.getElem_cons_succ] at hnext
  exact hnext

/-- A scan of a string emits its words' characters, and stops at the zero word (R192, R196). -/
theorem scan_string {chars : Word → List Byte} {ws : List Word} {a : Word} {s : State} (hws : ∀ w ∈ ws, w ≠ 0)
    (hat : WordsAt a (ws ++ [0]) s) (hout : AcceptsOutput (ws.flatMap chars).length s) :
    ∃ t, scan chars (ws.length + 1) a s = .next t ∧ Emitted (ws.flatMap chars) s t ∧ PortsOnly s t ∧
      t.status = s.status := by
  induction ws generalizing a s with
  | nil =>
    refine ⟨s, ?_, ⟨rfl, rfl, by simp, (List.append_nil _).symm⟩, .refl s, rfl⟩
    rw [scan_succ, hat.memRead_first]
    rfl
  | cons w ws ih =>
    obtain ⟨hw, hws⟩ := List.forall_mem_cons.mp hws
    rw [List.flatMap_cons, List.length_append] at hout
    obtain ⟨s1, hemit, hemitted, hports, hstatus⟩ := emitAll_accepted (cs := chars w) (s := s) fun k hk =>
      (Nat.le_add_right _ _).trans (hout k hk)
    obtain ⟨t, hscan, hemitted', hports', hstatus'⟩ := ih hws (hat.tail.of_portsOnly hports) (hout.after hemitted)
    refine ⟨t, ?_, hemitted.append hemitted', hports.trans hports', hstatus'.trans hstatus⟩
    rw [List.length_cons, scan_succ, hat.memRead_first, andThen_value, if_neg hw, hemit, andThen_value]
    exact hscan

/-- A routine that used the ports alone and did not end the run has been served (R184, R187). -/
theorem serviced_of_portsOnly {s t : State} (h : PortsOnly (enterTrap s) t) (hstatus : t.status = s.status) :
    Serviced [] s t := by
  have hreg := h.reg
  obtain ⟨-, hpc, hpsr, hmem, hcfg, -⟩ := h
  exact ⟨(hreg .r7).trans (reg_enterTrap_same s),
    fun r hr => (hreg r).trans (reg_enterTrap_ne s (List.ne_of_not_mem_cons hr)), hpc, hpsr,
    fun a => congrArg (Memory.read · a) hmem, hstatus, hcfg⟩

/-- Settles O35, by the scan of a string under the bound. -/
theorem putsEmitsTheString : Obligations.PutsEmitsTheString := by
  intro ws s hws hat hout
  have hchars : ws.flatMap putsChars = ws.map (·.extractLsb' 0 8) := List.flatMap_pure_eq_map _ ws
  have hout' : AcceptsOutput (ws.flatMap putsChars).length (enterTrap s) := by
    rw [hchars, List.length_map]; exact hout
  obtain ⟨t, hscan, hemitted, hports, hstatus⟩ := scan_string (s := enterTrap s) hws hat hout'
  rw [hchars] at hemitted
  exact ⟨t, (exec_trap_puts s).trans (scan_scanBound putsChars_ne_nil hscan nofun),
    serviced_of_portsOnly hports hstatus, hemitted⟩

/-- Settles O36, by the scan of a string under the bound. -/
theorem putspEmitsPackedString : Obligations.PutspEmitsPackedString := by
  intro ws s hws hat hout
  rw [← putspChars_eq] at hout ⊢
  obtain ⟨t, hscan, hemitted, hports, hstatus⟩ := scan_string (s := enterTrap s) hws hat hout
  exact ⟨t, (exec_trap_putsp s).trans (scan_scanBound putspChars_ne_nil hscan nofun),
    serviced_of_portsOnly hports hstatus, hemitted⟩

end Sys2Proof.Machine
end

section
/-!
PROOFS. When a step stops and when it completes (U6, U9, R94, R262): no instruction is refused, a hold needs a host that
never answers, and a hang needs a state in which no scan ends.
-/

namespace Sys2Proof.Machine

/-! ### Refusals (R94) -/

theorem loadFrom_ne_refused (dr : Reg) (a : Word) (s : State) (f : Refusal) : loadFrom dr a s ≠ .refused f := by
  intro h
  obtain ⟨v, s1, -, h⟩ := andThen_eq_refused.mp h
  cases h

theorem inRoutine_ne_refused (s : State) (f : Refusal) : inRoutine s ≠ .refused f := by
  intro h
  obtain ⟨u, s1, -, h⟩ := andThen_eq_refused.mp h
  obtain ⟨c, s2, -, h⟩ := andThen_eq_refused.mp h
  obtain ⟨u', s3, -, h⟩ := andThen_eq_refused.mp h
  cases h

theorem trap_ne_refused (v : BitVec 8) (s : State) (f : Refusal) : exec (.trap v) s ≠ .refused f := by
  intro h
  obtain ⟨-, hexec⟩ | ⟨-, hexec⟩ | ⟨-, chars, -, hexec⟩ | ⟨-, hexec⟩ | ⟨st, hexec⟩ := trap_routine v
  case inl =>
    obtain ⟨c, s1, -, h⟩ := andThen_eq_refused.mp ((hexec s).symm.trans h)
    cases h
  case inr.inl =>
    obtain ⟨u, s1, -, h⟩ := andThen_eq_refused.mp ((hexec s).symm.trans h)
    cases h
  case inr.inr.inl => exact scan_ne_refused _ _ _ _ f ((hexec s).symm.trans h)
  case inr.inr.inr.inl => exact inRoutine_ne_refused _ f ((hexec s).symm.trans h)
  case inr.inr.inr.inr => cases (hexec s).symm.trans h

/-- Every instruction has a meaning. -/
theorem exec_ne_refused (i : Instr) (s : State) (f : Refusal) : exec i s ≠ .refused f := by
  cases i with
  | trap v => exact trap_ne_refused v s f
  | ld dr o => exact loadFrom_ne_refused _ _ _ _
  | ldr dr b o => exact loadFrom_ne_refused _ _ _ _
  | ldi dr o =>
    intro h
    obtain ⟨p, s1, -, h⟩ := andThen_eq_refused.mp h
    exact loadFrom_ne_refused _ _ _ _ h
  | sti sr o =>
    intro h
    obtain ⟨p, s1, -, h⟩ := andThen_eq_refused.mp h
    cases h
  | _ => exact nofun

/-- No step is refused (R94). -/
theorem step_ne_refused (s : State) (f : Refusal) : step s ≠ .refused f := by
  unfold step
  split
  · intro h
    obtain ⟨ir, s1, -, h⟩ := andThen_eq_refused.mp h
    exact exec_ne_refused _ _ f h
  · exact nofun

/-! ### Faults -/

/-- The two stuck states, and what each needs of the state: a hold, a host that never answers (R245, U6); a hang, that
no scan ends (U9, log 6). -/
inductive StuckAt (s : State) : Fault → Prop where
  | hold (h : s.inputAfter = .never) : StuckAt s .inputNeverAnswered
  | hang (h : NeverStops s) : StuckAt s .scanNeverEnds

theorem stuckAt_of_never {s : State} {f : Fault} {P : Prop} (h : s.inputAfter = .never ∧ f = .inputNeverAnswered) :
    StuckAt s f ∧ (f = .scanNeverEnds → P) := by
  obtain ⟨hafter, rfl⟩ := h
  exact ⟨.hold hafter, nofun⟩

theorem inputRead_stuck_never {s : State} {f : Fault} (h : inputRead s = .stuck f) :
    s.inputAfter = .never ∧ f = .inputNeverAnswered := by
  obtain ⟨hn, hf⟩ := inputRead_stuck.mp h
  exact ⟨inputAfter_of_nextAnswer_none hn, hf⟩

theorem memRead_stuck_never {a : Word} {s : State} {f : Fault} (h : memRead a s = .stuck f) :
    s.inputAfter = .never ∧ f = .inputNeverAnswered := by
  obtain ⟨-, hn, hf⟩ := memRead_stuck h
  exact ⟨inputAfter_of_nextAnswer_none hn, hf⟩

theorem memRead_value_inputAfter {a v : Word} {s s1 : State} (h : memRead a s = .value v s1) :
    s1.inputAfter = s.inputAfter :=
  (readsTo_iff.mpr h).host_eq.1

theorem loadFrom_fault {dr : Reg} {a : Word} {s : State} {f : Fault} (h : loadFrom dr a s = .fault f) :
    s.inputAfter = .never ∧ f = .inputNeverAnswered := by
  obtain ⟨v, s1, -, h⟩ | hstuck := andThen_eq_fault.mp h
  · cases h
  · exact memRead_stuck_never hstuck

/-- A scan faults only in a hold or at its bound. -/
theorem scan_fault {chars : Word → List Byte} {n : Nat} {a : Word} {s : State} {f : Fault}
    (h : scan chars n a s = .fault f) : (s.inputAfter = .never ∧ f = .inputNeverAnswered) ∨ f = .scanNeverEnds := by
  induction n generalizing a s with
  | zero => exact .inr (Host.Outcome.fault.inj h).symm
  | succ n ih =>
    obtain ⟨w, s1, hread, h⟩ | hstuck := andThen_eq_fault.mp h
    · split at h
      · cases h
      · obtain ⟨u, s2, hemit, h⟩ | hstuck := andThen_eq_fault.mp h
        · obtain ⟨-, hafter, -⟩ := scan_turn_keeps (readsTo_iff.mpr hread) hemit
          rw [← hafter]
          exact ih h
        · exact absurd hstuck (emitAll_ne_stuck _ _ _)
    · exact .inl (memRead_stuck_never hstuck)

theorem scan_scanBound_fault {chars : Word → List Byte} (hne : ∀ w, chars w ≠ []) {a : Word} {s : State} {f : Fault}
    (h : scan chars (scanBound s) a s = .fault f) : StuckAt s f := by
  obtain ⟨hafter, rfl⟩ | rfl := scan_fault h
  · exact .hold hafter
  · exact .hang (neverStops_of_scan_hang hne h)

theorem inRoutine_fault {s : State} {f : Fault} (h : inRoutine s = .fault f) :
    s.inputAfter = .never ∧ f = .inputNeverAnswered := by
  obtain ⟨u, s1, hprompt, h⟩ | hstuck := andThen_eq_fault.mp h
  · obtain ⟨-, -, -, hafter, -⟩ := emitAll_value hprompt
    obtain ⟨c, s2, -, h⟩ | hstuck := andThen_eq_fault.mp h
    · obtain ⟨u', s3, -, h⟩ | hstuck := andThen_eq_fault.mp h
      · cases h
      · exact absurd hstuck (emit_ne_stuck _ _ _)
    · rw [← hafter]
      exact inputRead_stuck_never hstuck
  · exact absurd hstuck (emitAll_ne_stuck _ _ _)

/-- A TRAP stops in a hold, or, if it is PUTS or PUTSP, in a hang. -/
theorem trap_fault {v : BitVec 8} {s : State} {f : Fault} (h : exec (.trap v) s = .fault f) :
    StuckAt s f ∧ (f = .scanNeverEnds → v = 0x22 ∨ v = 0x24) := by
  obtain ⟨-, hexec⟩ | ⟨-, hexec⟩ | ⟨hv, chars, hne, hexec⟩ | ⟨-, hexec⟩ | ⟨st, hexec⟩ := trap_routine v
  case inl =>
    obtain ⟨c, s1, -, h⟩ | hstuck := andThen_eq_fault.mp ((hexec s).symm.trans h)
    · cases h
    · exact stuckAt_of_never (inputRead_stuck_never (s := enterTrap s) hstuck)
  case inr.inl =>
    obtain ⟨u, s1, -, h⟩ | hstuck := andThen_eq_fault.mp ((hexec s).symm.trans h)
    · cases h
    · exact absurd hstuck (emit_ne_stuck _ _ _)
  case inr.inr.inl =>
    refine ⟨?_, fun _ => hv⟩
    cases scan_scanBound_fault hne ((hexec s).symm.trans h) with
    | hold hafter => exact .hold hafter
    | hang hstops => exact .hang hstops
  case inr.inr.inr.inl => exact stuckAt_of_never (inRoutine_fault (s := enterTrap s) ((hexec s).symm.trans h))
  case inr.inr.inr.inr => cases (hexec s).symm.trans h

/-- Every instruction stops only in a hold or a hang, and only PUTS and PUTSP hang. -/
theorem exec_fault {i : Instr} {s : State} {f : Fault} (h : exec i s = .fault f) :
    StuckAt s f ∧ (f = .scanNeverEnds → i = .trap 0x22 ∨ i = .trap 0x24) := by
  cases i with
  | trap v =>
    obtain ⟨hstuck, hv⟩ := trap_fault h
    exact ⟨hstuck, fun hf => (hv hf).imp (congrArg Instr.trap) (congrArg Instr.trap)⟩
  | ld dr o => exact stuckAt_of_never (loadFrom_fault h)
  | ldr dr b o => exact stuckAt_of_never (loadFrom_fault h)
  | ldi dr o =>
    obtain ⟨p, s1, hread, h⟩ | hstuck := andThen_eq_fault.mp h
    · exact stuckAt_of_never (memRead_value_inputAfter hread ▸ loadFrom_fault h)
    · exact stuckAt_of_never (memRead_stuck_never hstuck)
  | sti sr o =>
    obtain ⟨p, s1, -, h⟩ | hstuck := andThen_eq_fault.mp h
    · cases h
    · exact stuckAt_of_never (memRead_stuck_never hstuck)
  | _ => cases h

/-- Settles O57: a hang needs a state in which no scan ends. -/
theorem hangNeedsMemoryWithoutZero : Obligations.HangNeedsMemoryWithoutZero := by
  intro i s h
  obtain ⟨hstuck, hi⟩ := exec_fault h
  obtain ⟨hfails, hquiet, -⟩ : NeverStops s := by cases hstuck with | hang hstops => exact hstops
  refine ⟨hi rfl, ?_, hfails, fun a hs hd => ?_⟩
  · have hstatus := hquiet s.cfg.devStatusAddr fun hhost => hhost.1 rfl
    rwa [quietWord, if_pos rfl] at hstatus
  · have hword := hquiet a fun hhost => hd hhost.2
    rwa [quietWord, if_neg hs] at hword

/-- With two device addresses and an input stream that ends, nothing is stuck. -/
theorem not_stuckAt {s : State} {f : Fault} (hcfg : s.cfg.wf = true)
    (hafter : s.inputAfter = .endOfInput ∨ s.inputAfter = .ioFailure) : ¬ StuckAt s f := by
  have hne : s.cfg.devDataAddr ≠ s.cfg.devStatusAddr := by
    rw [Config.wf, Bool.and_eq_true, bne_iff_ne] at hcfg
    exact hcfg.1.symm
  rintro (hnever | ⟨-, -, hhost⟩)
  · rw [hnever] at hafter
    exact hafter.elim nofun nofun
  · obtain ⟨-, c, -, hforever⟩ := hhost s.cfg.devDataAddr ⟨hne, rfl⟩
    rw [hforever] at hafter
    exact hafter.elim nofun nofun

/-- Settles O56: a step that is not refused either completes or is stuck, in its fetch or in its instruction. -/
theorem stepCompletesWhenInputEnds : Obligations.StepCompletesWhenInputEnds := by
  refine ⟨step_ne_refused, fun s hcfg hafter => ?_⟩
  cases hstep : step s with
  | next t => exact ⟨t, rfl⟩
  | refused f => exact absurd hstep (step_ne_refused s f)
  | fault f =>
    unfold step at hstep
    split at hstep
    · obtain ⟨ir, s1, hfetch, hexec⟩ | hstuck := andThen_eq_fault.mp hstep
      · obtain ⟨s2, hread, rfl⟩ := fetch_value.mp hfetch
        obtain ⟨⟨-, -, -, -, hcfg2, -⟩, -⟩ := memRead_value_portsOnly hread
        have hafter2 := memRead_value_inputAfter hread
        have hcfg' : (s2.setPc (s2.pc + 1)).cfg.wf = true := by rw [setPc_cfg, hcfg2, hcfg]
        exact absurd (exec_fault hexec).1 (not_stuckAt hcfg' (by rwa [setPc_inputAfter, hafter2]))
      · obtain ⟨hnever, rfl⟩ := memRead_stuck_never (fetch_stuck.mp hstuck)
        exact absurd (.hold hnever) (not_stuckAt hcfg hafter)
    · cases hstep

/-! ### Requests that are never answered (R245, U6) -/

/-- Settles O42: each request in turn, and the scans by the spec's loop. -/
theorem unansweredInputHoldsTheCore : Obligations.UnansweredInputHoldsTheCore := by
  intro s
  refine ⟨fun hn => ⟨?getc, fun hout => ?prompt, fun dr o hq => ⟨?ld, ?ldi, ?sti⟩, fun dr b o hq => ?ldr⟩,
    fun dr o p s1 hread hq hn => ?data, ?puts, ?putsp⟩
  case getc =>
    have hstuck : inputRead (enterTrap s) = .stuck .inputNeverAnswered := inputRead_stuck.mpr ⟨hn, rfl⟩
    rw [exec_trap_getc, hstuck, andThen_stuck]
  case prompt =>
    obtain ⟨s1, hprompt, ⟨hchars, hafter, -⟩, -⟩ := emitAll_accepted (s := enterTrap s) hout
    have hstuck : inputRead s1 = .stuck .inputNeverAnswered :=
      inputRead_stuck.mpr ⟨(nextAnswer_congr hchars hafter).trans hn, rfl⟩
    rw [exec_trap_in, inRoutine, enterTrap_cfg, hprompt, andThen_value, hstuck, andThen_stuck]
  case ld => rw [exec_ld, loadFrom, memRead_unanswered.mpr ⟨hq, hn⟩, andThen_stuck]
  case ldi => rw [exec_ldi, memRead_unanswered.mpr ⟨hq, hn⟩, andThen_stuck]
  case sti => rw [exec_sti, memRead_unanswered.mpr ⟨hq, hn⟩, andThen_stuck]
  case ldr => rw [exec_ldr, loadFrom, memRead_unanswered.mpr ⟨hq, hn⟩, andThen_stuck]
  case data =>
    rw [exec_ldi, readsTo_iff.mp hread, andThen_value, loadFrom, memRead_unanswered.mpr ⟨hq, hn⟩, andThen_stuck]
  case puts =>
    rw [exec_trap_puts, scan_scanBound_holds_iff putsChars_ne_nil]
    rfl
  case putsp =>
    rw [exec_trap_putsp, scan_scanBound_holds_iff putspChars_ne_nil, putspChars_eq]
    rfl

end Sys2Proof.Machine
end

section
/-!
PROOFS. The system instructions (43_system.md): RTI, the unassigned opcode, TRAP's entry, and the routines that take or
emit characters one at a time, GETC, OUT and IN.
-/

namespace Sys2Proof.Machine

/-! ### RTI and the unassigned opcode (R180, R200) -/

/-- Settles O31: RTI writes the status alone. -/
theorem rtiIsFatal : Obligations.RtiIsFatal :=
  ⟨fun _ hop => decode_opcode8 hop, fun _ =>
    ⟨_, rfl, ⟨rfl, rfl, fun _ _ => rfl, rfl, rfl, fun _ => rfl⟩, rfl, rfl, rfl, rfl⟩⟩

/-- Settles O41: the reported word is the whole word, its opcode and its low twelve bits together. -/
theorem unassignedOpcodeReports : Obligations.UnassignedOpcodeReports := by
  intro w s hop
  have hword : (0b1101#4 ++ w.extractLsb' 0 12 : Word) = w := by
    rw [← hop]
    exact BitVec.extractLsb'_append_extractLsb'
  refine ⟨decode_opcodeD hop, _, rfl, ?_, fun _ _ => rfl, rfl, rfl, fun _ => rfl, ⟨rfl, rfl⟩, rfl, rfl, rfl⟩
  rw [reportUnknownOpcode_trace, hword]

/-! ### Trap entry (R184, R227) -/

/-- Settles O32, by everything a TRAP can come to. -/
theorem everyTrapLinks : Obligations.EveryTrapLinks := by
  refine ⟨fun _ hop => decode_opcodeF hop, fun v s t h => ?_⟩
  obtain ⟨hpc, hpsr, hmem, hcfg, htrace, hr7, -⟩ := trap_next v h
  exact ⟨hr7, registerWriters _ _ _ h, hpc, hpsr, fun a => congrArg (Memory.read · a) hmem, hcfg, htrace⟩

/-- A run that ends in a routine that used the ports alone. -/
theorem endsRun_of_portsOnly {st : RunStatus} {s t : State} (h : PortsOnly (enterTrap s) t) (hst : t.status = st) :
    EndsRun st [.r7] s t ∧ t.reg .r7 = s.pc := by
  have hreg := h.reg
  obtain ⟨-, hpc, hpsr, hmem, hcfg, -⟩ := h
  exact ⟨⟨hst, hcfg, fun r hr => (hreg r).trans (reg_enterTrap_ne s (List.ne_of_not_mem_cons hr)), hpc, hpsr,
    fun a => congrArg (Memory.read · a) hmem⟩, (hreg .r7).trans (reg_enterTrap_same s)⟩

/-- What stands after a routine that wrote a character to x[0] and used ports before and after: x[7] holds the return
address, x[0] the character, and all else is as before trap entry. -/
theorem charTaken_keeps {c : Word} {s s1 t : State} (h1 : PortsOnly (enterTrap s) s1)
    (ht : PortsOnly (s1.setReg .r0 c) t) :
    t.reg .r7 = s.pc ∧ t.reg .r0 = c ∧ KeepsRegsBut [.r7, .r0] s t ∧ t.pc = s.pc ∧ t.psr = s.psr ∧ KeepsMem s t ∧
      t.cfg = s.cfg := by
  have hreg1 := h1.reg
  have hregt := ht.reg
  obtain ⟨-, hpc1, hpsr1, hmem1, hcfg1, -⟩ := h1
  obtain ⟨-, hpc, hpsr, hmem, hcfg, -⟩ := ht
  have hother : ∀ r, r ≠ .r0 → t.reg r = (enterTrap s).reg r := fun r hr =>
    (hregt r).trans ((reg_setReg_ne s1 c hr).trans (hreg1 r))
  refine ⟨(hother .r7 (by decide)).trans (reg_enterTrap_same s), (hregt .r0).trans (reg_setReg_same s1 .r0 c),
    fun r hr => ?_, hpc.trans hpc1, hpsr.trans hpsr1, fun a => congrArg (Memory.read · a) (hmem.trans hmem1),
    hcfg.trans hcfg1⟩
  have h7 := List.ne_of_not_mem_cons hr
  have h0 := List.ne_of_not_mem_cons (List.not_mem_of_not_mem_cons hr)
  exact (hother r h0).trans (reg_enterTrap_ne s h7)

/-! ### GETC and OUT (R190, R191) -/

/-- An input request the host answers with the end of the run. -/
theorem inputRead_ends {s : State} :
    (nextAnswer s = some .endOfInput → inputRead s = .ended (terminate .endOfInput (consumeInput .endOfInput s))) ∧
    (nextAnswer s = some .ioFailure → inputRead s = .ended (raiseFatal .ioFailure (consumeInput .ioFailure s))) :=
  ⟨fun h => inputRead_ended.mpr (.inl ⟨h, rfl⟩), fun h => inputRead_ended.mpr (.inr ⟨h, rfl⟩)⟩

/-- Settles O33, by the three answers of the host. -/
theorem getcReadsOneCharacter : Obligations.GetcReadsOneCharacter := by
  intro s
  obtain ⟨hendOfInput, hioFailure⟩ := inputRead_ends (s := enterTrap s)
  refine ⟨fun c hc => ?_, fun hc => ?_, fun hc => ?_⟩
  · have hread : inputRead (enterTrap s) = .value c (consumeInput (.char c) (enterTrap s)) :=
      inputRead_value.mpr ⟨hc, rfl⟩
    obtain ⟨hr7, hr0, hregs, hpc, hpsr, hmem, hcfg⟩ :=
      charTaken_keeps (consumeInput_portsOnly (.char c) (enterTrap s)) (.refl _)
    refine ⟨_, by rw [exec_trap_getc, hread, andThen_value], ⟨hr7, hregs, hpc, hpsr, hmem, rfl, hcfg⟩, hr0, ?_⟩
    exact tookInput_consume (.char c) s
  · have hread := hendOfInput hc
    obtain ⟨hends, hr7⟩ := endsRun_of_portsOnly (inputRead_ended_portsOnly hread).1 rfl
    exact ⟨_, by rw [exec_trap_getc, hread, andThen_ended], hends, hr7, tookInput_consume _ s⟩
  · have hread := hioFailure hc
    obtain ⟨hends, hr7⟩ := endsRun_of_portsOnly (inputRead_ended_portsOnly hread).1 rfl
    exact ⟨_, by rw [exec_trap_getc, hread, andThen_ended], hends, hr7, tookInput_consume _ s⟩

/-- An output request the host fails. -/
theorem emit_failed {s : State} (h : s.outputFailsAfter = some 0) (c : Byte) :
    emit c s = .ended (raiseFatal .ioFailure (s.record (.output c .ioFailure))) := by
  rw [emit, h]

/-- A failed request emits nothing (R187, log 21). -/
theorem output_record_failed (c : Byte) (s : State) : (s.record (.output c .ioFailure)).output = s.output := by
  unfold State.output
  rw [record_trace, List.filterMap_append]
  exact List.append_nil _

/-- Settles O34, by the two answers of the host. -/
theorem outEmitsLowByte : Obligations.OutEmitsLowByte := by
  intro s
  refine ⟨fun hout => ?_, fun hfails => ?_⟩
  · obtain ⟨t, hemit, hemitted, hports, hstatus⟩ := emit_accepted (c := lowByte (s.reg .r0)) (s := enterTrap s) hout
    exact ⟨t, by rw [exec_trap_out, hemit, andThen_value], serviced_of_portsOnly hports hstatus, hemitted⟩
  · have hemit := emit_failed (s := enterTrap s) hfails (lowByte (s.reg .r0))
    obtain ⟨hends, hr7⟩ := endsRun_of_portsOnly (emit_ended_portsOnly hemit).1 rfl
    exact ⟨_, by rw [exec_trap_out, hemit, andThen_ended], hends, hr7, rfl, output_record_failed _ s⟩

/-! ### IN (R193) -/

/-- IN after a prompt that the host accepts. -/
theorem exec_trap_in_of_prompt {s s1 : State} (h : emitAll s.cfg.inPrompt (enterTrap s) = .value () s1) :
    exec (.trap 0x23) s = (inputRead s1).andThen fun c s2 =>
      (emit (lowByte c) (s2.setReg .r0 c)).andThen fun _ s3 => .next s3 := by
  rw [exec_trap_in, inRoutine, enterTrap_cfg, h, andThen_value]

/-- An input request that ends the run comes after the prompt. -/
theorem in_ends_at_request {s : State} (hout : AcceptsOutput s.cfg.inPrompt.length s) {st : RunStatus}
    {answer : InputAnswer} (hanswer : nextAnswer s = some answer)
    (hread : ∀ u, nextAnswer u = some answer → inputRead u = .ended ((consumeInput answer u).setStatus st)) :
    ∃ t, exec (.trap 0x23) s = .next t ∧ EndsRun st [.r7] s t ∧ t.reg .r7 = s.pc ∧
      t.trace = s.trace ++ s.cfg.inPrompt.map (fun ch => .output ch .ok) ++ [.input answer] := by
  obtain ⟨s1, hprompt, ⟨hchars, hafter, -, htrace⟩, hports, -⟩ := emitAll_accepted (s := enterTrap s) hout
  have hend := hread s1 ((nextAnswer_congr hchars hafter).trans hanswer)
  obtain ⟨hends, hr7⟩ := endsRun_of_portsOnly (hports.trans (inputRead_ended_portsOnly hend).1) rfl
  refine ⟨_, by rw [exec_trap_in_of_prompt hprompt, hend, andThen_ended], hends, hr7, ?_⟩
  rw [setStatus_trace, consumeInput_trace, htrace]
  rfl

/-- A character is taken after the prompt; what is left is its echo. -/
theorem in_takes_char {s : State} (hout : AcceptsOutput s.cfg.inPrompt.length s) {c : Word}
    (hanswer : nextAnswer s = some (.char c)) :
    ∃ s2, exec (.trap 0x23) s = ((emit (lowByte c) (s2.setReg .r0 c)).andThen fun _ s3 => .next s3) ∧
      PortsOnly (enterTrap s) s2 ∧ s2.status = s.status ∧ s2.inputChars = s.inputChars.tail ∧
      s2.outputFailsAfter = s.outputFailsAfter.map (· - s.cfg.inPrompt.length) ∧
      s2.trace = s.trace ++ s.cfg.inPrompt.map (fun ch => .output ch .ok) ++ [.input (.char c)] := by
  obtain ⟨s1, hprompt, ⟨hchars, hafter, hfails, htrace⟩, hports, hstatus⟩ := emitAll_accepted (s := enterTrap s) hout
  have hread : inputRead s1 = .value c (consumeInput (.char c) s1) :=
    inputRead_value.mpr ⟨(nextAnswer_congr hchars hafter).trans hanswer, rfl⟩
  refine ⟨_, by rw [exec_trap_in_of_prompt hprompt, hread, andThen_value],
    hports.trans (consumeInput_portsOnly (.char c) s1), hstatus, congrArg List.tail hchars, hfails, ?_⟩
  rw [consumeInput_trace, htrace]
  rfl

/-- Settles O38, by where IN ends: the whole routine, the request with its two ends, the echo, the prompt. -/
theorem inPromptsReadsAndEchoes : Obligations.InPromptsReadsAndEchoes := by
  intro s
  refine ⟨fun c hc hout => ?whole, fun hc hout => ?endOfInput, fun hc hout => ?ioFailure, fun c hc hfails => ?echo,
    fun k hk hfails => ?prompt⟩
  case whole =>
    obtain ⟨s2, hexec, hports, hstatus, hchars, hfails2, htrace⟩ :=
      in_takes_char (fun k hk => (Nat.le_succ _).trans (hout k hk)) hc
    have haccepts : AcceptsOutput 1 (s2.setReg .r0 c) := by
      intro k hk
      rw [setReg_outputFailsAfter, hfails2] at hk
      obtain ⟨j, hj, rfl⟩ := Option.map_eq_some_iff.mp hk
      exact Nat.le_sub_of_add_le' (hout j hj)
    obtain ⟨t, hemit, ⟨hcharst, -, -, htracet⟩, hportst, hstatust⟩ := emit_accepted (c := lowByte c) haccepts
    obtain ⟨hr7, hr0, hregs, hpc, hpsr, hmem, hcfg⟩ := charTaken_keeps hports hportst
    refine ⟨t, by rw [hexec, hemit, andThen_value], ⟨hr7, hregs, hpc, hpsr, hmem, hstatust.trans hstatus, hcfg⟩, hr0,
      hcharst.trans hchars, ?_⟩
    rw [htracet, setReg_trace, htrace, List.append_assoc]
    rfl
  case endOfInput => exact in_ends_at_request hout hc fun u => inputRead_ends.1
  case ioFailure => exact in_ends_at_request hout hc fun u => inputRead_ends.2
  case echo =>
    obtain ⟨s2, hexec, hports, -, hchars, hfails2, htrace⟩ :=
      in_takes_char (fun k hk => (Option.some.inj (hfails.symm.trans hk)).le) hc
    have hzero : (s2.setReg .r0 c).outputFailsAfter = some 0 := by
      rw [setReg_outputFailsAfter, hfails2, hfails, Option.map_some, Nat.sub_self]
    have hemit := emit_failed hzero (lowByte c)
    obtain ⟨hr7, hr0, hregs, hpc, hpsr, hmem, hcfg⟩ := charTaken_keeps hports (emit_ended_portsOnly hemit).1
    refine ⟨_, by rw [hexec, hemit, andThen_ended], ⟨rfl, hcfg, hregs, hpc, hpsr, hmem⟩, hr7, hr0, hchars, ?_⟩
    rw [raiseFatal_trace, record_trace, setReg_trace, htrace, List.append_assoc]
    rfl
  case prompt =>
    obtain ⟨t, hprompt, hports, hstatus, hchars, htrace⟩ := emitAll_fails hk (s := enterTrap s) hfails
    obtain ⟨hends, hr7⟩ := endsRun_of_portsOnly hports hstatus
    exact ⟨t, by rw [exec_trap_in, inRoutine, enterTrap_cfg, hprompt, andThen_ended], hends, hr7, hchars, htrace⟩

end Sys2Proof.Machine
end

section
/-!
PROOFS. The operate instructions (40_operate.md) and control transfer (41_control.md).
-/

namespace Sys2Proof.Machine

/-! ### Operands -/

/-- sext is the field's two's-complement value (R11). -/
theorem sext_eq_ofInt {n : Nat} (v : BitVec n) : sext v = BitVec.ofInt 16 v.toInt := rfl

/-! ### ADD, AND, NOT (R110 to R119) -/

/-- Settles O13. -/
theorem addRegisterForm : Obligations.AddRegisterForm :=
  ⟨fun _ hop hm => decode_addReg hop hm, fun dr _ _ s => ⟨_, rfl, writeResult_writesReg dr _ s⟩⟩

/-- Settles O14. -/
theorem addImmediateForm : Obligations.AddImmediateForm :=
  ⟨fun _ hop hm => decode_addImm hop hm, fun dr _ _ s => ⟨_, rfl, writeResult_writesReg dr _ s⟩⟩

/-- Settles O15. -/
theorem andRegisterForm : Obligations.AndRegisterForm :=
  ⟨fun _ hop hm => decode_andReg hop hm, fun dr _ _ s => ⟨_, rfl, writeResult_writesReg dr _ s⟩⟩

/-- Settles O16. -/
theorem andImmediateForm : Obligations.AndImmediateForm :=
  ⟨fun _ hop hm => decode_andImm hop hm, fun dr _ _ s => ⟨_, rfl, writeResult_writesReg dr _ s⟩⟩

/-- Settles O17. -/
theorem notComplements : Obligations.NotComplements :=
  ⟨fun _ hop => decode_opcode9 hop, fun dr _ s => ⟨_, rfl, writeResult_writesReg dr _ s⟩⟩

/-- Settles O18: both forms write the same value. -/
theorem formsOfAddAndAndAgree : Obligations.FormsOfAddAndAndAgree := by
  intro dr sr1 sr2 imm5 s h
  rw [← sext_eq_ofInt] at h
  exact ⟨congrArg (fun v => Host.Outcome.next (writeResult dr (s.reg sr1 + v) s)) h,
    congrArg (fun v => Host.Outcome.next (writeResult dr (s.reg sr1 &&& v) s)) h⟩

/-- Of two results written to one register the second stands (R37, R38). -/
theorem WritesReg.trans {dr : Reg} {v v' : Word} {s t u : State} (h : WritesReg dr v s t) (k : WritesReg dr v' t u) :
    WritesReg dr v' s u := by
  obtain ⟨-, hregs, ⟨-, -, -, hhigh⟩, hpc, hmem, hstatus, hcfg⟩ := h
  obtain ⟨hval, hregs', ⟨hn, hz, hp, hhigh'⟩, hpc', hmem', hstatus', hcfg'⟩ := k
  exact ⟨hval, fun r hr => (hregs' r hr).trans (hregs r hr), ⟨hn, hz, hp, fun i hi => (hhigh' i hi).trans (hhigh i hi)⟩,
    hpc'.trans hpc, fun a => (hmem' a).trans (hmem a), hstatus'.trans hstatus, hcfg'.trans hcfg⟩

/-- Two's-complement negation: the complement plus one (R119). -/
theorem not_add_one_eq (x : Word) : ~~~x + sext (1 : BitVec 5) = BitVec.ofNat 16 (0x10000 - x.toNat) :=
  (BitVec.neg_eq_not_add x).symm.trans (BitVec.eq_of_toNat_eq (by simp))

/-- Settles O19. -/
theorem notThenAddOneNegates : Obligations.NotThenAddOneNegates := by
  intro r s
  have hnot := (writeResult_writesReg r (~~~(s.reg r)) s).1
  have hadd := writeResult_writesReg r (BitVec.ofNat 16 (0x10000 - (s.reg r).toNat)) (writeResult r (~~~(s.reg r)) s)
  refine ⟨_, _, rfl, ?_, hnot.trans hadd.1, hadd.2⟩
  rw [← not_add_one_eq]
  change Host.Outcome.next _ = _
  rw [reg_writeResult_same]

/-! ### BR (R130) -/

/-- The three condition bits of a psr (R36). -/
theorem ccField_eq (psr : Word) :
    ccField psr = BitVec.ofBool (psr.getLsbD 2) ++ BitVec.ofBool (psr.getLsbD 1) ++ BitVec.ofBool (psr.getLsbD 0) := by
  have hbits : ∀ a b c : Bool, ∀ j < 3,
      (BitVec.ofBool a ++ BitVec.ofBool b ++ BitVec.ofBool c : BitVec 3).getLsbD j =
        if j = 0 then c else if j = 1 then b else a := by
    decide
  refine BitVec.eq_of_getLsbD_eq fun j hj => ?_
  rw [hbits _ _ _ j hj, ccField, BitVec.getLsbD_extractLsb', decide_eq_true hj, Bool.true_and, Nat.zero_add]
  interval_cases j <;> rfl

/-- The condition of BR, by the bits it names. -/
theorem branchTaken_eq (n z p : Bool) (psr : Word) :
    branchTaken n z p psr = ((n && psr.getLsbD 2) || (z && psr.getLsbD 1) || (p && psr.getLsbD 0)) := by
  have hbits : ∀ n z p n' z' p' : Bool,
      ((BitVec.ofBool n ++ BitVec.ofBool z ++ BitVec.ofBool p : BitVec 3) &&&
        (BitVec.ofBool n' ++ BitVec.ofBool z' ++ BitVec.ofBool p') != 0) = ((n && n') || (z && z') || (p && p')) := by
    decide
  rw [branchTaken, ccField_eq]
  exact hbits ..

/-- Under a legal psr some condition holds (R39). -/
theorem branchTaken_all_of_psrOneHot {psr : Word} (h : psrOneHot psr = true) :
    branchTaken true true true psr = true := by
  have hfield : ∀ cc : BitVec 3, (cc == 0b100#3 || cc == 0b010#3 || cc == 0b001#3) = true →
      ((BitVec.ofBool true ++ BitVec.ofBool true ++ BitVec.ofBool true : BitVec 3) &&& cc != 0) = true := by
    decide
  exact hfield (ccField psr) h

/-- A jump writes pc alone. -/
theorem setPc_goesTo (target : Word) (s : State) : GoesTo target [] s (s.setPc target) :=
  ⟨rfl, fun _ _ => rfl, rfl, fun _ => rfl, ⟨rfl, rfl⟩, rfl, rfl, rfl, rfl⟩

/-- A call writes x[7] and pc alone (R142). -/
theorem link_setPc_goesTo (target : Word) (s : State) : GoesTo target [.r7] s ((link s).setPc target) :=
  ⟨rfl, fun _ hr => reg_link_ne s (List.ne_of_not_mem_cons hr), rfl, fun _ => rfl, ⟨rfl, rfl⟩, rfl, rfl, rfl, rfl⟩

/-- Settles O20. -/
theorem branchTakenOnItsConditions : Obligations.BranchTakenOnItsConditions := by
  refine ⟨fun _ hop => decode_opcode0 hop, fun n z p offset9 s => ⟨⟨_, rfl, ?_⟩, fun hpsr => ⟨_, rfl, ?_⟩⟩⟩
  · rw [branchTaken_eq]
    split
    · exact setPc_goesTo _ s
    · exact setPc_goesTo s.pc s
  · rw [branchTaken_all_of_psrOneHot hpsr, if_pos rfl]
    rfl

/-! ### JMP, RET, JSR, JSRR (R136 to R142) -/

/-- Settles O21. -/
theorem jumpAndReturnThroughRegister : Obligations.JumpAndReturnThroughRegister := by
  refine ⟨fun w hop hb => ?_, fun w hop hb => ?_, fun baseR s => ⟨_, rfl, setPc_goesTo _ s⟩,
    fun s => ⟨_, rfl, setPc_goesTo _ s⟩⟩
  · exact decode_jmp hop (mt (Reg.ofBits_eq_r7_iff _).mp hb)
  · exact decode_ret hop ((Reg.ofBits_eq_r7_iff _).mpr hb)

/-- Settles O22. -/
theorem jsrLinksAndJumps : Obligations.JsrLinksAndJumps :=
  ⟨fun _ hop hm => decode_jsr hop hm, fun _ s => ⟨_, rfl, reg_link_same s, link_setPc_goesTo _ s⟩⟩

/-- The base register of JSRR, read after the link (R141, decision D14). -/
theorem reg_link (baseR : Reg) (s : State) : (link s).reg baseR = if baseR = .r7 then s.pc else s.reg baseR := by
  split
  · next h => rw [h, reg_link_same]
  · next h => exact reg_link_ne s h

/-- Settles O23. -/
theorem jsrrLinksThenReadsItsBase : Obligations.JsrrLinksThenReadsItsBase := by
  refine ⟨fun _ hop hm => decode_jsrr hop hm, fun baseR s => ⟨_, rfl, reg_link_same s, ?_⟩⟩
  rw [← reg_link]
  exact link_setPc_goesTo _ s

end Sys2Proof.Machine
end

section
/-!
PROOFS. Storage, the read contract (20_memory.md), and the loads and stores (42_load_store.md).
-/

namespace Sys2Proof.Machine

/-! ### The canonical form (log 1) -/

theorem Memory.lookup_cons_same (a : Nat) (v : Word) (rest : Memory) : Memory.lookup ((a, v) :: rest) a = v := by
  rw [Memory.lookup, if_pos rfl]

theorem Memory.lookup_cons_ne {a b : Nat} (v : Word) (rest : Memory) (h : b ≠ a) :
    Memory.lookup ((a, v) :: rest) b = Memory.lookup rest b := by
  rw [Memory.lookup, if_neg h]

/-- The first address of a canonical memory reads as a word that no address below the listed ones reads as. -/
theorem Memory.lookup_first_ne {lo a b : Nat} {v w : Word} {m n : Memory} (hm : Memory.wfFrom lo ((a, v) :: m) = true)
    (hn : Memory.wfFrom b ((b, w) :: n) = true) (hlt : a < b) :
    Memory.lookup ((a, v) :: m) a ≠ Memory.lookup ((b, w) :: n) a := by
  obtain ⟨-, -, hv, -⟩ := Memory.wfFrom_cons.mp hm
  rw [Memory.lookup_cons_same, Memory.lookup_below hn hlt]
  exact hv

/-- Canonical lists that read alike are the same list: their first addresses agree, or one of them would list a word
that the other does not. -/
theorem Memory.eq_of_lookup_eq {lo : Nat} {m n : Memory} (hm : Memory.wfFrom lo m = true)
    (hn : Memory.wfFrom lo n = true) (h : ∀ a, a < 0x10000 → Memory.lookup m a = Memory.lookup n a) : m = n := by
  induction m generalizing lo n with
  | nil =>
    cases n with
    | nil => rfl
    | cons q n =>
      obtain ⟨b, w⟩ := q
      obtain ⟨-, hb, hw, -⟩ := Memory.wfFrom_cons.mp hn
      exact absurd ((h b hb).trans (Memory.lookup_cons_same b w n)).symm hw
  | cons p m ih =>
    obtain ⟨a, v⟩ := p
    obtain ⟨-, ha, hv, hm'⟩ := Memory.wfFrom_cons.mp hm
    cases n with
    | nil => exact absurd ((Memory.lookup_cons_same a v m).symm.trans (h a ha)) hv
    | cons q n =>
      obtain ⟨b, w⟩ := q
      obtain ⟨-, hb, hw, hn'⟩ := Memory.wfFrom_cons.mp hn
      obtain hlt | rfl | hgt := Nat.lt_trichotomy a b
      · exact absurd (h a ha) (Memory.lookup_first_ne hm (Memory.wfFrom_cons.mpr ⟨le_refl b, hb, hw, hn'⟩) hlt)
      · have hword : v = w := by
          have := h a ha
          rwa [Memory.lookup_cons_same, Memory.lookup_cons_same] at this
        have hrest : m = n := ih hm' hn' fun x hx => by
          by_cases hxa : x < a + 1
          · rw [Memory.lookup_below hm' hxa, Memory.lookup_below hn' hxa]
          · have := h x hx
            rwa [Memory.lookup_cons_ne v m (by omega), Memory.lookup_cons_ne w n (by omega)] at this
        rw [hword, hrest]
      · exact absurd (h b hb).symm (Memory.lookup_first_ne hn (Memory.wfFrom_cons.mpr ⟨le_refl a, ha, hv, hm'⟩) hgt)

/-- Settles O6. -/
theorem canonicalMemoriesAreExtensional : Obligations.CanonicalMemoriesAreExtensional := by
  intro m n hm hn h
  refine Memory.eq_of_lookup_eq hm hn fun a ha => ?_
  have haddr : (BitVec.ofNat 16 a).toNat = a := (BitVec.toNat_ofNat a 16).trans (Nat.mod_eq_of_lt ha)
  rw [← haddr]
  exact h (BitVec.ofNat 16 a)

/-! ### The read contract (R53 to R55) -/

/-- What is left where an input request ends the run (R54). -/
theorem endsRun_consumeInput (st : RunStatus) (answer : InputAnswer) (s : State) :
    EndsRun st [] s ((consumeInput answer s).setStatus st) ∧
      TookInput answer s ((consumeInput answer s).setStatus st) :=
  ⟨⟨rfl, rfl, fun _ _ => rfl, rfl, rfl, fun _ => rfl⟩, rfl, rfl, rfl, rfl⟩

/-- An outcome that is the end of an input request, where there is one, ends as R54 says. -/
theorem endsAtInput_of {s : State} {r : Result} (h : ∀ t, inputRead s = .ended t → r = .next t) : EndsAtInput s r := by
  obtain ⟨hendOfInput, hioFailure⟩ := inputRead_ends (s := s)
  exact ⟨fun hc => ⟨_, h _ (hendOfInput hc), endsRun_consumeInput _ _ s⟩,
    fun hc => ⟨_, h _ (hioFailure hc), endsRun_consumeInput _ _ s⟩⟩

/-- An instruction that begins with a read of the data register ends with it (R158). -/
theorem memRead_andThen_endsAtInput {a : Word} {s : State} (h : ReadsHost a s) (k : Word → State → Result) :
    EndsAtInput s ((memRead a s).andThen k) :=
  endsAtInput_of fun t ht => by rw [memRead_data h, ht, andThen_ended]

/-- A read of the data register that the host answers with a character. -/
theorem readsTo_of_char {a c : Word} {s : State} (h : ReadsHost a s) (hc : nextAnswer s = some (.char c)) :
    ReadsTo a s c (consumeInput (.char c) s) :=
  .inr ⟨h, hc, consumeInput_portsOnly _ s, rfl, tookInput_consume _ s⟩

/-- A read that does not ask the host. -/
theorem readsTo_of_quiet {a : Word} {s : State} (h : ¬ ReadsHost a s) : ReadsTo a s (quietWord a s) s :=
  .inl ⟨h, rfl, rfl⟩

/-- Settles O7, by the address and the host's answer. -/
theorem memReadFollowsTheIntercept : Obligations.MemReadFollowsTheIntercept := by
  intro a s
  refine ⟨memRead_status, memRead_storage, fun hq => ⟨fun c hc => ?_, fun hc => ?_, fun hc => ?_, fun hn => ?_⟩⟩
  · exact ⟨_, readsTo_iff.mp (readsTo_of_char hq hc), consumeInput_portsOnly _ s, rfl, tookInput_consume _ s⟩
  · exact ⟨_, (memRead_data hq).trans (inputRead_ends.1 hc), endsRun_consumeInput _ _ s⟩
  · exact ⟨_, (memRead_data hq).trans (inputRead_ends.2 hc), endsRun_consumeInput _ _ s⟩
  · exact memRead_unanswered.mpr ⟨hq, hn⟩

/-! ### Loads (R150 to R158) -/

/-- A write after reads is the same write from before them. -/
theorem WritesReg.of_portsOnly {dr : Reg} {v : Word} {s s1 t : State} (h : WritesReg dr v s1 t) (hp : PortsOnly s s1)
    (hst : s1.status = s.status) : WritesReg dr v s t := by
  obtain ⟨hval, hregs, hflags, hpc, hmem, hstatus, hcfg⟩ := h
  have hreg1 := hp.reg
  obtain ⟨-, hpc1, hpsr1, hmem1, hcfg1, -⟩ := hp
  exact ⟨hval, fun r hr => (hregs r hr).trans (hreg1 r), hflags.of_psr_eq hpsr1, hpc.trans hpc1,
    fun a => (hmem a).trans (congrArg (Memory.read · a) hmem1), hstatus.trans hst, hcfg.trans hcfg1⟩

/-- A state that used no port after an input request has taken that request's input. -/
theorem TookInput.of_keepsPorts {answer : InputAnswer} {s s1 t : State} (h : TookInput answer s s1)
    (k : KeepsPorts s1 t) : TookInput answer s t := by
  obtain ⟨hchars, hafter, hfails, htrace⟩ := h
  obtain ⟨hchars', hafter', hfails', htrace'⟩ := k
  exact ⟨hchars'.trans hchars, hafter'.trans hafter, hfails'.trans hfails, htrace'.trans htrace⟩

/-- A load whose data read answers writes that word (R150, R154). -/
theorem loadFrom_of_readsTo {a v : Word} {s s1 : State} (h : ReadsTo a s v s1) (dr : Reg) :
    ∃ t, loadFrom dr a s = .next t ∧ WritesReg dr v s t ∧ KeepsPorts s1 t := by
  have hread := readsTo_iff.mp h
  obtain ⟨hports, hstatus⟩ := memRead_value_portsOnly hread
  obtain ⟨hwrites, hkeeps⟩ := writeResult_writesReg dr v s1
  exact ⟨_, by rw [loadFrom, hread, andThen_value], hwrites.of_portsOnly hports hstatus, hkeeps⟩

/-- Everything a load from `a` does (R150, R154, R158). -/
theorem loadFrom_loads (dr : Reg) (a : Word) (s : State) :
    (¬ ReadsHost a s →
      ∃ t, loadFrom dr a s = .next t ∧ WritesReg dr (quietWord a s) s t ∧ KeepsPorts s t) ∧
    (∀ c, ReadsHost a s → nextAnswer s = some (.char c) →
      ∃ t, loadFrom dr a s = .next t ∧ WritesReg dr c s t ∧ TookInput (.char c) s t) ∧
    (ReadsHost a s → EndsAtInput s (loadFrom dr a s)) := by
  refine ⟨fun hq => loadFrom_of_readsTo (readsTo_of_quiet hq) dr, fun c hq hc => ?_,
    fun hq => memRead_andThen_endsAtInput hq _⟩
  obtain ⟨t, hload, hwrites, hkeeps⟩ := loadFrom_of_readsTo (readsTo_of_char hq hc) dr
  exact ⟨t, hload, hwrites, (tookInput_consume _ s).of_keepsPorts hkeeps⟩

/-- Settles O24. -/
theorem ldLoadsPcRelative : Obligations.LdLoadsPcRelative := by
  refine ⟨fun _ hop => decode_opcode2 hop, fun dr offset9 s a ha => ?_⟩
  subst ha
  exact loadFrom_loads dr (pcRel9 offset9 s) s

/-- Settles O26. -/
theorem ldrLoadsBasePlusOffset : Obligations.LdrLoadsBasePlusOffset := by
  refine ⟨fun _ hop => decode_opcode6 hop, fun dr baseR offset6 s a ha => ?_⟩
  subst ha
  exact loadFrom_loads dr (baseOff6 baseR offset6 s) s

/-- LDI, once its pointer read has answered, is a load from the pointer (R152). -/
theorem exec_ldi_of_readsTo {offset9 : BitVec 9} {p : Word} {s s1 : State} (h : ReadsTo (pcRel9 offset9 s) s p s1)
    (dr : Reg) : exec (.ldi dr offset9) s = loadFrom dr p s1 := by
  rw [exec_ldi, readsTo_iff.mp h, andThen_value]

/-- Settles O25, by the pointer read and then the load from the pointer. -/
theorem ldiLoadsThroughPointer : Obligations.LdiLoadsThroughPointer := by
  refine ⟨fun _ hop => decode_opcodeA hop, fun dr offset9 s a ha => ?_⟩
  subst ha
  have hboth : ∀ p s1 v s2, ReadsTo (pcRel9 offset9 s) s p s1 → ReadsTo p s1 v s2 →
      ∃ t, exec (.ldi dr offset9) s = .next t ∧ WritesReg dr v s t ∧ KeepsPorts s2 t := by
    intro p s1 v s2 hpointer hdata
    obtain ⟨hports, hstatus⟩ := memRead_value_portsOnly (readsTo_iff.mp hpointer)
    obtain ⟨t, hload, hwrites, hkeeps⟩ := loadFrom_of_readsTo hdata dr
    exact ⟨t, (exec_ldi_of_readsTo hpointer dr).trans hload, hwrites.of_portsOnly hports hstatus, hkeeps⟩
  refine ⟨fun hq hq' => hboth _ _ _ _ (readsTo_of_quiet hq) (readsTo_of_quiet hq'), hboth,
    fun hq => memRead_andThen_endsAtInput hq _, fun p s1 hpointer hq => ?_⟩
  rw [exec_ldi_of_readsTo hpointer dr]
  exact memRead_andThen_endsAtInput hq _

/-- Settles O27: LEA reads no memory. -/
theorem leaLoadsTheAddress : Obligations.LeaLoadsTheAddress :=
  ⟨fun _ hop => decode_opcodeE hop, fun dr _ s => ⟨_, rfl, writeResult_writesReg dr _ s⟩⟩

/-! ### Stores (R160 to R164) -/

/-- Settles O28. -/
theorem stStoresPcRelative : Obligations.StStoresPcRelative := by
  refine ⟨fun _ hop => decode_opcode3 hop, fun sr offset9 s hwf => ?_⟩
  obtain ⟨hstores, hkeeps⟩ := memWrite_stores hwf (pcRel9 offset9 s) (s.reg sr)
  exact ⟨_, rfl, hstores, congrArg (s.pc + ·) (sext_eq_ofInt offset9), hkeeps⟩

/-- Settles O30. -/
theorem strStoresBasePlusOffset : Obligations.StrStoresBasePlusOffset := by
  refine ⟨fun _ hop => decode_opcode7 hop, fun sr baseR offset6 s hwf => ?_⟩
  obtain ⟨hstores, hkeeps⟩ := memWrite_stores hwf (baseOff6 baseR offset6 s) (s.reg sr)
  exact ⟨_, rfl, hstores, congrArg (s.reg baseR + ·) (sext_eq_ofInt offset6), hkeeps⟩

/-- STI, once its pointer read has answered, stores at the pointer (R162). -/
theorem exec_sti_of_readsTo {offset9 : BitVec 9} {p : Word} {s s1 : State} (h : ReadsTo (pcRel9 offset9 s) s p s1)
    (hwf : s.mem.wf = true) (sr : Reg) :
    ∃ t, exec (.sti sr offset9) s = .next t ∧ Stores p (s.reg sr) s t ∧ KeepsPorts s1 t := by
  have hread := readsTo_iff.mp h
  obtain ⟨hports, hst⟩ := memRead_value_portsOnly hread
  have hreg1 := hports.reg
  obtain ⟨-, hpc1, hpsr1, hmem1, hcfg1, -⟩ := hports
  obtain ⟨⟨hval, hmem, hregs, hpc, hpsr, hstatus, hcfg⟩, hkeeps⟩ :=
    memWrite_stores (s := s1) (hmem1 ▸ hwf) p (s1.reg sr)
  refine ⟨_, exec_sti_of_memRead hread, ⟨hval.trans (hreg1 sr), fun a ha => ?_, fun r hr => ?_, hpc.trans hpc1,
    hpsr.trans hpsr1, hstatus.trans hst, hcfg.trans hcfg1⟩, hkeeps⟩
  · exact (hmem a ha).trans (congrArg (Memory.read · a) hmem1)
  · exact (hregs r hr).trans (hreg1 r)

/-- Settles O29, by the pointer read. -/
theorem stiStoresThroughPointer : Obligations.StiStoresThroughPointer := by
  refine ⟨fun _ hop => decode_opcodeB hop, fun sr offset9 s a hwf ha => ?_⟩
  subst ha
  refine ⟨fun hq => exec_sti_of_readsTo (readsTo_of_quiet hq) hwf sr, fun c hq hc => ?_,
    fun hq => memRead_andThen_endsAtInput hq _⟩
  obtain ⟨t, hexec, hstores, hkeeps⟩ := exec_sti_of_readsTo (readsTo_of_char hq hc) hwf sr
  exact ⟨t, hexec, hstores, (tookInput_consume _ s).of_keepsPorts hkeeps⟩

/-! ### A store to a device address (R57) -/

theorem baseOff6_zero (b : Reg) (s : State) : baseOff6 b 0 s = s.reg b := BitVec.add_zero _

theorem pcRel9_zero (s : State) : pcRel9 0 s = s.pc := BitVec.add_zero _

/-- STR with offset 0, then LDR with offset 0 from the same base: a load from the base in the state with the store. -/
theorem exec_str_ldr_zero (sr b dr : Reg) (s : State) :
    exec (.str sr b 0) s = .next (memWrite (s.reg b) (s.reg sr) s) ∧
      exec (.ldr dr b 0) (memWrite (s.reg b) (s.reg sr) s) =
        loadFrom dr (s.reg b) (memWrite (s.reg b) (s.reg sr) s) := by
  rw [exec_ldr, baseOff6_zero, memWrite_reg]
  refine ⟨?_, rfl⟩
  rw [← baseOff6_zero b s]
  rfl

/-- Settles O8: the load's read answers by its address, not by the backing cell. -/
theorem deviceStoreIsNeverReadBack : Obligations.DeviceStoreIsNeverReadBack := by
  intro s sr b dr hcfg
  have hne : s.cfg.devStatusAddr ≠ s.cfg.devDataAddr := by
    rw [Config.wf, Bool.and_eq_true, bne_iff_ne] at hcfg
    exact hcfg.1
  obtain ⟨hstr, hldr⟩ := exec_str_ldr_zero sr b dr s
  refine ⟨fun ha => ?_, fun c ha hc => ?_⟩
  · have hq : ¬ ReadsHost (s.reg b) (memWrite (s.reg b) (s.reg sr) s) := fun h => h.1 ha
    obtain ⟨u, hload, hwrites, hkeeps⟩ := loadFrom_of_readsTo (readsTo_of_quiet hq) dr
    rw [quietWord, memWrite_cfg, if_pos ha] at hwrites
    exact ⟨_, u, hstr, hldr.trans hload, hwrites, hkeeps⟩
  · have hq : ReadsHost (s.reg b) (memWrite (s.reg b) (s.reg sr) s) := ⟨fun h => hne (h.symm.trans ha), ha⟩
    obtain ⟨u, hload, hwrites, hkeeps⟩ := loadFrom_of_readsTo (readsTo_of_char hq hc) dr
    exact ⟨_, u, hstr, hldr.trans hload, hwrites, (tookInput_consume (.char c) s).of_keepsPorts hkeeps⟩

end Sys2Proof.Machine
end

section
/-!
PROOFS. The step (R80, R262), runs, reset (R45, R250, R254), and the load port (R252).
-/

namespace Sys2Proof.Machine

/-! ### One step -/

theorem step_running {s : State} (h : s.status = .running) :
    step s = (fetch s).andThen fun ir s1 => exec (decode ir) s1 := by
  rw [step, if_pos h]

theorem step_terminal {s : State} (h : s.Terminal) : step s = .next s := by
  rw [step, if_neg h]

/-- Settles O48: the fetch is a read of storage, then the increment. -/
theorem stepRunsTheDecodedInstruction : Obligations.StepRunsTheDecodedInstruction := by
  intro s hrun hs hd
  rw [step_running hrun, fetch_storage hs hd, andThen_value]

/-- A BR that names no condition does nothing (R93). -/
theorem exec_br_never (o : BitVec 9) (s : State) : exec (.br false false false o) s = .next s := by
  have htaken : branchTaken false false false s.psr = false := branchTaken_eq ..
  change execBr _ _ _ _ _ = _
  rw [execBr, htaken]
  rfl

/-- Settles O49: the zero word is a BR that names no condition. -/
theorem zeroWordIsANoOp : Obligations.ZeroWordIsANoOp := by
  intro s hrun hs hd hzero
  have hdecode : decode 0 = .br false false false 0 := rfl
  rw [stepRunsTheDecodedInstruction s hrun hs hd, hzero, hdecode, exec_br_never]

/-- Settles O9: the step after the store fetches the stored word. -/
theorem storedWordIsExecutedNext : Obligations.StoredWordIsExecutedNext := by
  intro s sr hwf hrun hs hd
  have hst : exec (.st sr 0) s = .next (memWrite s.pc (s.reg sr) s) := by
    rw [← pcRel9_zero s]
    rfl
  refine ⟨_, hst, (memWrite_stores hwf s.pc (s.reg sr)).1, ?_⟩
  rw [stepRunsTheDecodedInstruction (memWrite s.pc (s.reg sr) s) hrun hs hd, memWrite_mem, memWrite_pc,
    Memory.read_write_same hwf]

/-- Settles O50: the fetch is a read through the intercept. -/
theorem stepFetchesThroughTheIntercept : Obligations.StepFetchesThroughTheIntercept := by
  intro s hrun
  rw [step_running hrun]
  refine ⟨fun ha => ?_, fun hq => ⟨fun c hc => ?_, endsAtInput_of fun t ht => ?_, fun hn => ?_⟩⟩
  · rw [fetch_value.mpr ⟨s, memRead_status ha, rfl⟩, andThen_value]
  · have hread := readsTo_iff.mp (readsTo_of_char hq hc)
    refine ⟨(consumeInput (.char c) s).setPc (s.pc + 1), tookInput_consume _ s, rfl, fun _ _ => rfl, rfl, rfl,
      ⟨rfl, rfl⟩, ?_⟩
    rw [fetch_value.mpr ⟨_, hread, rfl⟩, andThen_value, consumeInput_pc]
  · rw [fetch_ended.mpr ((memRead_data hq).trans ht), andThen_ended]
  · rw [fetch_stuck.mpr (memRead_unanswered.mpr ⟨hq, hn⟩), andThen_stuck]

/-! ### Runs -/

/-- A run of any machine that begins with a step that completes. -/
theorem core_run_succ {M : Host.Core} {s t : M.State} (h : M.step s = .next t) (k : Nat) :
    M.run (k + 1) s = M.run k t := by
  rw [Host.Core.run, h]

/-- A run that begins with a step that completes. -/
theorem run_succ_of_step {s t : State} (h : step s = .next t) (k : Nat) :
    Sys2Proof.core.run (k + 1) s = Sys2Proof.core.run k t :=
  core_run_succ (M := Sys2Proof.core) h k

/-- Settles O51, by induction on the number of steps. -/
theorem terminalStatesAreFinal : Obligations.TerminalStatesAreFinal := by
  intro s k hs
  induction k with
  | zero => rfl
  | succ k ih => rw [run_succ_of_step (step_terminal hs), ih]

/-! ### Reset -/

/-- Every register holds zero at reset (R45, decision D6). -/
theorem reset_reg (r : Reg) : State.reset.reg r = 0x0000 := by
  cases r <;> rfl

/-- Settles O52. -/
theorem resetState : Obligations.ResetState :=
  ⟨rfl, reset_reg, rfl, rfl, reset_mem_read, rfl, rfl⟩

/-- Settles O53. -/
theorem resetMeetsTheInvariant : Obligations.ResetMeetsTheInvariant :=
  ⟨reset_mem_wf, rfl, rfl⟩

/-- From any address below the status register, a step of the empty memory runs a zero word. -/
theorem step_reset_setPc {p : Word} (hp : p.toNat < 0xFE00) :
    step (State.reset.setPc p) = .next (State.reset.setPc (p + 1)) := by
  refine zeroWordIsANoOp (State.reset.setPc p) rfl (fun h => ?_) (fun h => ?_) (reset_mem_read p)
  · have : p = 0xFE00 := h
    rw [this] at hp
    exact absurd hp (by decide)
  · have : p = 0xFE02 := h
    rw [this] at hp
    exact absurd hp (by decide)

/-- The no-ops of the empty memory, up to the status register. -/
theorem run_reset_setPc (j k : Nat) {p : Word} (hp : p.toNat + k ≤ 0xFE00) :
    Sys2Proof.core.run (j + k) (State.reset.setPc p) =
      Sys2Proof.core.run j (State.reset.setPc (p + BitVec.ofNat 16 k)) := by
  induction k generalizing p with
  | zero => rw [BitVec.add_zero]; rfl
  | succ k ih =>
    rw [← Nat.add_assoc, run_succ_of_step (step_reset_setPc (by omega)), ih (by bv_omega), add_ofNat_succ]

/-- At the status register the empty memory runs the ready value, which is RTI (R55, R67). -/
theorem step_reset_status :
    step (State.reset.setPc 0xFE00) = .next ((State.reset.setPc 0xFE01).setStatus (.fatal .rtiUnsupported)) := by
  rw [(stepFetchesThroughTheIntercept (State.reset.setPc 0xFE00) rfl).1 rfl]
  rfl

/-- Settles O58: the no-ops, and then the RTI. -/
theorem emptyMemoryRunsToRti : Obligations.EmptyMemoryRunsToRti := by
  have hpc : (0x3000 + BitVec.ofNat 16 0xCE00 : Word) = 0xFE00 := by decide
  have hrun : ∀ j, Sys2Proof.core.run (j + 0xCE00) State.reset =
      Sys2Proof.core.run j (State.reset.setPc 0xFE00) := fun j => by
    rw [← hpc]
    exact run_reset_setPc j 0xCE00 (p := 0x3000) (by decide)
  exact ⟨hrun 0, (hrun 1).trans (run_succ_of_step step_reset_status 0)⟩

/-! ### The load port (R252) -/

/-- The bytes of one word put together again. -/
theorem bytes_append (w : Word) : (w.extractLsb' 8 8 ++ w.extractLsb' 0 8 : Word) = w :=
  BitVec.extractLsb'_append_extractLsb'

/-- The bytes of an image's words, and the words again (R58). -/
theorem imageWords_bytes (ws : List Word) :
    imageWords (ws.flatMap fun w => [w.extractLsb' 8 8, w.extractLsb' 0 8]) = ws := by
  induction ws with
  | nil => rfl
  | cons w ws ih => exact congrArg₂ List.cons (bytes_append w) ih

/-- Two bytes a word. -/
theorem length_bytes (ws : List Word) :
    (ws.flatMap fun w => [w.extractLsb' 8 8, w.extractLsb' 0 8]).length = 2 * ws.length := by
  induction ws with
  | nil => rfl
  | cons w ws ih =>
    have htwo : [w.extractLsb' 8 8, w.extractLsb' 0 8].length = 2 := rfl
    rw [List.flatMap_cons, List.length_append, ih, htwo, List.length_cons (as := ws), Nat.mul_succ, Nat.add_comm]

/-- Loading the bytes of an origin and words. -/
theorem loadImage_imageBytes (o : Word) (ws : List Word) {s : State} (hrun : s.status = .running) :
    loadImage (imageBytes o ws) s =
      if o.toNat + ws.length ≤ 0x10000 then .next ((s.setMem (s.mem.writeWords o ws)).setPc o)
      else .refused .imageOverflow := by
  have hbytes : imageBytes o ws = o.extractLsb' 8 8 :: o.extractLsb' 0 8 ::
      ws.flatMap fun w => [w.extractLsb' 8 8, w.extractLsb' 0 8] := rfl
  have heven : 2 * ws.length % 2 ≠ 1 := by omega
  rw [hbytes, loadImage, if_pos hrun, bytes_append, imageWords_bytes, length_bytes, if_neg heven,
    Nat.mul_div_cancel_left _ Nat.two_pos]

/-- Words outside a block that is written stay. -/
theorem Memory.read_writeWords_outside {m : Memory} (h : m.wf = true) {o a : Word} {ws : List Word}
    (ha : ∀ i, i < ws.length → a ≠ o + BitVec.ofNat 16 i) : (m.writeWords o ws).read a = m.read a := by
  induction ws generalizing m o with
  | nil => rfl
  | cons w ws ih =>
    have hfirst : a ≠ o := fun e => ha 0 (Nat.succ_pos _) (e.trans (BitVec.add_zero o).symm)
    have hrest := ih (Memory.write_wf h o w) (o := o + 1) fun i hi => by
      rw [← add_ofNat_succ]
      exact ha (i + 1) (Nat.succ_lt_succ hi)
    exact hrest.trans (Memory.read_write_ne h w hfirst)

/-- The words of a block that does not pass the top of memory read back. -/
theorem Memory.read_writeWords_inside {m : Memory} (h : m.wf = true) {o : Word} {ws : List Word}
    (hlen : o.toNat + ws.length ≤ 0x10000) {i : Nat} (hi : i < ws.length) :
    (m.writeWords o ws).read (o + BitVec.ofNat 16 i) = ws[i] := by
  induction ws generalizing m o i with
  | nil => exact absurd hi (Nat.not_lt_zero i)
  | cons w ws ih =>
    rw [List.length_cons] at hlen
    have hwf := Memory.write_wf h o w
    cases i with
    | zero =>
      have hfirst : ∀ j, j < ws.length → o ≠ o + 1 + BitVec.ofNat 16 j := fun j hj => by bv_omega
      rw [BitVec.add_zero]
      exact (Memory.read_writeWords_outside hwf hfirst).trans (Memory.read_write_same h o w)
    | succ i =>
      have hi' : i < ws.length := Nat.lt_of_succ_lt_succ hi
      rw [add_ofNat_succ]
      exact ih hwf (by bv_omega) hi'

/-- Settles O59. -/
theorem loadPlacesTheImage : Obligations.LoadPlacesTheImage := by
  intro o ws s hwf hrun hlen
  refine ⟨(s.setMem (s.mem.writeWords o ws)).setPc o, by rw [loadImage_imageBytes o ws hrun, if_pos hlen], rfl,
    Memory.writeWords_wf hwf o ws,
    fun i hi => Memory.read_writeWords_inside hwf hlen hi, fun a ha => Memory.read_writeWords_outside hwf ha,
    fun _ _ => rfl, rfl, ⟨rfl, rfl⟩, rfl, rfl, rfl, rfl⟩

/-- Settles O60, by the length of the image: too short for an origin, then odd, then past the top. -/
theorem badImagesAreRefused : Obligations.BadImagesAreRefused := by
  refine ⟨fun b s hrun hshort => ?_, fun b s hrun htwo hodd => ?_, fun o ws s hrun hlong => ?_⟩
  · match b, hshort with
    | [], _ => exact if_pos hrun
    | [_], _ => exact if_pos hrun
  · match b, htwo, hodd with
    | hi :: lo :: rest, _, hodd =>
      have hrest : rest.length % 2 = 1 := by
        rwa [List.length_cons, List.length_cons, Nat.add_assoc, Nat.add_mod_right] at hodd
      exact (if_pos hrun).trans (if_pos hrest)
  · rw [loadImage_imageBytes o ws hrun, if_neg (Nat.not_le.mpr hlong)]

end Sys2Proof.Machine
end
